-- ==== Sys2Proof/Word.lean ====
section
/-! DEFINITION. The word types of the core (spec/00_scope.md R8, R11): 32-bit registers, words and addresses, 8-bit
bytes, and the index of one of the 32 general registers (R20, R84). -/

namespace Sys2Proof

/-- A register, a memory word or an address: 32 bits; `+` and `-` are modulo 2^32 (R11). -/
abbrev Word := BitVec 32

/-- One byte of memory (R50). -/
abbrev Byte := BitVec 8

/-- The index of a general register, `r0` to `r31` (R20, R84). -/
abbrev Reg := Fin 32

end Sys2Proof
end

