-- ==== Sys2Proof/Machine/Flags.lean ====
section
/-! DEFINITION. The block has no status flags (spec/10_state.md R28). What stands here are the conditions other
instruction sets keep in flags: the signed-overflow tests of add, addi and sub (spec/40_r_alu.md R110, R116), the signed
comparison of slt and slti (R118), and the branch conditions (spec/44_control.md R206 to R209). -/

namespace Sys2Proof.Machine

/-- Signed overflow of `a + b`: the operands have the same sign and the result's sign differs (R110, C5). -/
def addOverflows (a b : Word) : Bool := a.msb == b.msb && (a + b).msb != a.msb

/-- Signed overflow of `a - b`: the operands' signs differ and the result's sign differs from the minuend's (R116,
C5). -/
def subOverflows (a b : Word) : Bool := a.msb != b.msb && (a - b).msb != a.msb

/-- The result of slt and slti: 1 if `signed(a) < signed(b)`, else 0 (R118, R165). -/
def setLess (a b : Word) : Word := if a.toInt < b.toInt then 1#32 else 0#32

/-- `signed(a) <= 0`, the condition of blez (R208). -/
def leZero (a : Word) : Bool := decide (a.toInt ≤ 0)

/-- `signed(a) > 0`, the condition of bgtz (R209). -/
def gtZero (a : Word) : Bool := decide (0 < a.toInt)

end Sys2Proof.Machine
end

