-- ==== Sys2Proof/Machine/Bytes.lean ====
section
/-! DEFINITION. The byte order, decided once (spec/20_memory.md R54): little-endian, the byte at the lowest address is
the least significant. Memory accesses, the fetch and the decoder on bytes all go through these definitions. -/

namespace Sys2Proof

/-- Byte `i` of a word, bits `8i+7 : 8i` (R56). -/
def byteOf (v : Word) (i : Nat) : Byte := v.extractLsb' (8 * i) 8

/-- The halfword whose byte at the lower address is `b0` (R54, R55). -/
def leHalf (b0 b1 : Byte) : BitVec 16 := b1 ++ b0

/-- The word whose bytes at rising addresses are `b0`, `b1`, `b2`, `b3` (R54, R55). -/
def leWord (b0 b1 b2 b3 : Byte) : Word := b3 ++ b2 ++ b1 ++ b0

/-- The low `n` bytes of a word, least significant first (R56). -/
def leBytes (n : Nat) (v : Word) : List Byte := (List.range n).map (byteOf v)

end Sys2Proof
end

