-- ==== Sys2Proof/Syntax.lean ====
section
/-! DEFINITION. The 41 instructions (spec/00_scope.md R2, spec/opcode_table.json), one constructor per row, with the
operands an instruction reads or writes, in the order of its assembly spelling (spec/30_encoding.md R100). Fields an
instruction ignores (R92) are no operands. -/

namespace Sys2Proof

/-- An instruction. `rd`, `rs`, `rt` are register indexes (R84); `shamt` is a shift amount, legal from 0 to 31
(`Instr.wf`); `imm`, `off` are the 16-bit immediate field; `target` is the 26-bit jump field (R81). -/
inductive Instr where
  -- shifts, 40_r_alu.md
  | sll (rd rt : Reg) (shamt : Nat)
  | srl (rd rt : Reg) (shamt : Nat)
  | sra (rd rt : Reg) (shamt : Nat)
  -- register jumps, 44_control.md
  | jr (rs : Reg)
  | jalr (rd rs : Reg)
  -- HI/LO moves, multiply, divide, 41_r_muldiv.md
  | mfhi (rd : Reg)
  | mthi (rs : Reg)
  | mflo (rd : Reg)
  | mtlo (rs : Reg)
  | mult (rs rt : Reg)
  | multu (rs rt : Reg)
  | div (rs rt : Reg)
  | divu (rs rt : Reg)
  -- register arithmetic, logic and compare, 40_r_alu.md
  | add (rd rs rt : Reg)
  | addu (rd rs rt : Reg)
  | sub (rd rs rt : Reg)
  | subu (rd rs rt : Reg)
  | and (rd rs rt : Reg)
  | or (rd rs rt : Reg)
  | xor (rd rs rt : Reg)
  | nor (rd rs rt : Reg)
  | slt (rd rs rt : Reg)
  -- absolute jumps, 44_control.md
  | j (target : BitVec 26)
  | jal (target : BitVec 26)
  -- conditional branches, 44_control.md
  | beq (rs rt : Reg) (off : BitVec 16)
  | bne (rs rt : Reg) (off : BitVec 16)
  | blez (rs : Reg) (off : BitVec 16)
  | bgtz (rs : Reg) (off : BitVec 16)
  -- immediate arithmetic, logic and compare, 42_i_alu.md
  | addi (rt rs : Reg) (imm : BitVec 16)
  | addiu (rt rs : Reg) (imm : BitVec 16)
  | slti (rt rs : Reg) (imm : BitVec 16)
  | andi (rt rs : Reg) (imm : BitVec 16)
  | ori (rt rs : Reg) (imm : BitVec 16)
  | xori (rt rs : Reg) (imm : BitVec 16)
  | lui (rt : Reg) (imm : BitVec 16)
  -- loads and stores `op rt, imm(rs)`, 43_loadstore.md
  | lb (rt rs : Reg) (imm : BitVec 16)
  | lh (rt rs : Reg) (imm : BitVec 16)
  | lw (rt rs : Reg) (imm : BitVec 16)
  | sb (rt rs : Reg) (imm : BitVec 16)
  | sh (rt rs : Reg) (imm : BitVec 16)
  | sw (rt rs : Reg) (imm : BitVec 16)
deriving DecidableEq, Repr

end Sys2Proof
end

