-- ==== Sys2Proof/WellFormed.lean ====
section
/-! DEFINITION. Which instruction terms an encoding exists for. Register indexes and the 16- and 26-bit fields are in
range by their types; the one check left is the shift amount (spec/30_encoding.md R84; spec/40_r_alu.md R119: "a shift
by 32 or more cannot be encoded"). -/

namespace Sys2Proof

/-- The term has an encoding: a shift amount is 0 to 31 (R84). -/
def Instr.wf : Instr → Bool
  | .sll _ _ shamt => decide (shamt < 32)
  | .srl _ _ shamt => decide (shamt < 32)
  | .sra _ _ shamt => decide (shamt < 32)
  | .jr _ => true
  | .jalr _ _ => true
  | .mfhi _ => true
  | .mthi _ => true
  | .mflo _ => true
  | .mtlo _ => true
  | .mult _ _ => true
  | .multu _ _ => true
  | .div _ _ => true
  | .divu _ _ => true
  | .add _ _ _ => true
  | .addu _ _ _ => true
  | .sub _ _ _ => true
  | .subu _ _ _ => true
  | .and _ _ _ => true
  | .or _ _ _ => true
  | .xor _ _ _ => true
  | .nor _ _ _ => true
  | .slt _ _ _ => true
  | .j _ => true
  | .jal _ => true
  | .beq _ _ _ => true
  | .bne _ _ _ => true
  | .blez _ _ => true
  | .bgtz _ _ => true
  | .addi _ _ _ => true
  | .addiu _ _ _ => true
  | .slti _ _ _ => true
  | .andi _ _ _ => true
  | .ori _ _ _ => true
  | .xori _ _ _ => true
  | .lui _ _ => true
  | .lb _ _ _ => true
  | .lh _ _ _ => true
  | .lw _ _ _ => true
  | .sb _ _ _ => true
  | .sh _ _ _ => true
  | .sw _ _ _ => true

end Sys2Proof
end

