-- ==== Sys2Proof/Decode.lean ====
section
/-! DEFINITION. The decoder and the encoder (spec/30_encoding.md). `decodeWord` is the total decoder of R82 and R83: every
word has a format and fields. `classify` is R90: the tag of a decoded word, or none. `decodeInstr` puts the two together
and builds the instruction with its operands; it rejects a word by name. The encoder (R96) is written from the same
opcode and funct maps (R89, R91). The numeric values other than add's and addi's are the standard MIPS32 ones the spec
decided on (D1). -/

namespace Sys2Proof

/-! ### Formats (R81) -/

/-- The fields of an R-format word; its opcode is 000000 (R81). -/
structure RFields where
  rs    : Reg
  rt    : Reg
  rd    : Reg
  shamt : BitVec 5
  funct : BitVec 6
deriving DecidableEq, Repr

/-- The fields of an I-format word (R81). -/
structure IFields where
  opcode : BitVec 6
  rs     : Reg
  rt     : Reg
  imm    : BitVec 16
deriving DecidableEq, Repr

/-- The fields of a J-format word (R81). -/
structure JFields where
  opcode : BitVec 6
  target : BitVec 26
deriving DecidableEq, Repr

/-- A structurally decoded word (R82). -/
inductive Decoded where
  | r (f : RFields)
  | i (f : IFields)
  | j (f : JFields)
deriving DecidableEq, Repr

/-- The register a 5-bit field names (R84). -/
def regOf (b : BitVec 5) : Reg := b.toFin

/-- The 5-bit field that names a register (R84). -/
def regBits (r : Reg) : BitVec 5 := BitVec.ofFin r

/-- Bits 31:26 (R81). -/
def opcodeOf (w : Word) : BitVec 6 := w.extractLsb' 26 6

/-- Bits 25:21 (R81). -/
def rsOf (w : Word) : Reg := regOf (w.extractLsb' 21 5)

/-- Bits 20:16 (R81). -/
def rtOf (w : Word) : Reg := regOf (w.extractLsb' 16 5)

/-- Bits 15:11 (R81). -/
def rdOf (w : Word) : Reg := regOf (w.extractLsb' 11 5)

/-- Bits 10:6 (R81). -/
def shamtOf (w : Word) : BitVec 5 := w.extractLsb' 6 5

/-- Bits 5:0 (R81). -/
def functOf (w : Word) : BitVec 6 := w.extractLsb' 0 6

/-- Bits 15:0 (R81). -/
def imm16Of (w : Word) : BitVec 16 := w.extractLsb' 0 16

/-- Bits 25:0 (R81). -/
def target26Of (w : Word) : BitVec 26 := w.extractLsb' 0 26

/-- The three formats (R81). -/
inductive Format where
  | r
  | i
  | j
deriving DecidableEq, Repr

/-- The format is chosen by the opcode alone: 000000 is R, 000010 and 000011 are J, every other opcode is I (R83, C1,
D2, D3). -/
def formatOf (opcode : BitVec 6) : Format :=
  if opcode = 0b000000#6 then .r
  else if opcode = 0b000010#6 ∨ opcode = 0b000011#6 then .j
  else .i

/-- `decode(word)`: pure and total, with no failure path (R82). -/
def decodeWord (w : Word) : Decoded :=
  match formatOf (opcodeOf w) with
  | .r => .r { rs := rsOf w, rt := rtOf w, rd := rdOf w, shamt := shamtOf w, funct := functOf w }
  | .j => .j { opcode := opcodeOf w, target := target26Of w }
  | .i => .i { opcode := opcodeOf w, rs := rsOf w, rt := rtOf w, imm := imm16Of w }

/-! ### Opcode and function maps (R88, R89, R91) -/

/-- The 22 R-format instructions (R91). -/
inductive RTag where
  | sll
  | srl
  | sra
  | jr
  | jalr
  | mfhi
  | mthi
  | mflo
  | mtlo
  | mult
  | multu
  | div
  | divu
  | add
  | addu
  | sub
  | subu
  | and
  | or
  | xor
  | nor
  | slt
deriving DecidableEq, Repr

/-- The 17 I-format instructions (R89). -/
inductive ITag where
  | beq
  | bne
  | blez
  | bgtz
  | addi
  | addiu
  | slti
  | andi
  | ori
  | xori
  | lui
  | lb
  | lh
  | lw
  | sb
  | sh
  | sw
deriving DecidableEq, Repr

/-- The two J-format instructions (R83, R89). -/
inductive JTag where
  | j
  | jal
deriving DecidableEq, Repr

/-- One of the 41 instruction tags (R88). -/
inductive Tag where
  | r (t : RTag)
  | i (t : ITag)
  | j (t : JTag)
deriving DecidableEq, Repr

/-- The function map under opcode 0 (R91); none for an illegal funct (R93). -/
def functTag (funct : BitVec 6) : Option RTag :=
  match funct with
  | 0x00#6 => some .sll
  | 0x02#6 => some .srl
  | 0x03#6 => some .sra
  | 0x08#6 => some .jr
  | 0x09#6 => some .jalr
  | 0x10#6 => some .mfhi
  | 0x11#6 => some .mthi
  | 0x12#6 => some .mflo
  | 0x13#6 => some .mtlo
  | 0x18#6 => some .mult
  | 0x19#6 => some .multu
  | 0x1A#6 => some .div
  | 0x1B#6 => some .divu
  | 0x20#6 => some .add
  | 0x21#6 => some .addu
  | 0x22#6 => some .sub
  | 0x23#6 => some .subu
  | 0x24#6 => some .and
  | 0x25#6 => some .or
  | 0x26#6 => some .xor
  | 0x27#6 => some .nor
  | 0x2A#6 => some .slt
  | _ => none

/-- The primary opcode map of the I-format (R89); none for an illegal opcode (R93). -/
def opcodeITag (opcode : BitVec 6) : Option ITag :=
  match opcode with
  | 0x04#6 => some .beq
  | 0x05#6 => some .bne
  | 0x06#6 => some .blez
  | 0x07#6 => some .bgtz
  | 0x08#6 => some .addi
  | 0x09#6 => some .addiu
  | 0x0A#6 => some .slti
  | 0x0C#6 => some .andi
  | 0x0D#6 => some .ori
  | 0x0E#6 => some .xori
  | 0x0F#6 => some .lui
  | 0x20#6 => some .lb
  | 0x21#6 => some .lh
  | 0x23#6 => some .lw
  | 0x28#6 => some .sb
  | 0x29#6 => some .sh
  | 0x2B#6 => some .sw
  | _ => none

/-- The primary opcode map of the J-format (R89). -/
def opcodeJTag (opcode : BitVec 6) : Option JTag :=
  match opcode with
  | 0x02#6 => some .j
  | 0x03#6 => some .jal
  | _ => none

/-- The funct of an R-format instruction (R91). -/
def RTag.funct : RTag → BitVec 6
  | .sll => 0x00#6
  | .srl => 0x02#6
  | .sra => 0x03#6
  | .jr => 0x08#6
  | .jalr => 0x09#6
  | .mfhi => 0x10#6
  | .mthi => 0x11#6
  | .mflo => 0x12#6
  | .mtlo => 0x13#6
  | .mult => 0x18#6
  | .multu => 0x19#6
  | .div => 0x1A#6
  | .divu => 0x1B#6
  | .add => 0x20#6
  | .addu => 0x21#6
  | .sub => 0x22#6
  | .subu => 0x23#6
  | .and => 0x24#6
  | .or => 0x25#6
  | .xor => 0x26#6
  | .nor => 0x27#6
  | .slt => 0x2A#6

/-- The opcode of an I-format instruction (R89). -/
def ITag.opcode : ITag → BitVec 6
  | .beq => 0x04#6
  | .bne => 0x05#6
  | .blez => 0x06#6
  | .bgtz => 0x07#6
  | .addi => 0x08#6
  | .addiu => 0x09#6
  | .slti => 0x0A#6
  | .andi => 0x0C#6
  | .ori => 0x0D#6
  | .xori => 0x0E#6
  | .lui => 0x0F#6
  | .lb => 0x20#6
  | .lh => 0x21#6
  | .lw => 0x23#6
  | .sb => 0x28#6
  | .sh => 0x29#6
  | .sw => 0x2B#6

/-- The opcode of a J-format instruction (R89). -/
def JTag.opcode : JTag → BitVec 6
  | .j => 0x02#6
  | .jal => 0x03#6

/-- `classify(d)`: the tag by funct for R-format, by opcode for I- and J-format; none for every other combination
(R90). -/
def classify : Decoded → Option Tag
  | .r f => (functTag f.funct).map Tag.r
  | .i f => (opcodeITag f.opcode).map Tag.i
  | .j f => (opcodeJTag f.opcode).map Tag.j

/-! ### Instructions with their operands (R92, R100) -/

/-- The R-format instruction of a tag, with the fields it uses (R91, R92). -/
def RTag.build (f : RFields) : RTag → Instr
  | .sll => .sll f.rd f.rt f.shamt.toNat
  | .srl => .srl f.rd f.rt f.shamt.toNat
  | .sra => .sra f.rd f.rt f.shamt.toNat
  | .jr => .jr f.rs
  | .jalr => .jalr f.rd f.rs
  | .mfhi => .mfhi f.rd
  | .mthi => .mthi f.rs
  | .mflo => .mflo f.rd
  | .mtlo => .mtlo f.rs
  | .mult => .mult f.rs f.rt
  | .multu => .multu f.rs f.rt
  | .div => .div f.rs f.rt
  | .divu => .divu f.rs f.rt
  | .add => .add f.rd f.rs f.rt
  | .addu => .addu f.rd f.rs f.rt
  | .sub => .sub f.rd f.rs f.rt
  | .subu => .subu f.rd f.rs f.rt
  | .and => .and f.rd f.rs f.rt
  | .or => .or f.rd f.rs f.rt
  | .xor => .xor f.rd f.rs f.rt
  | .nor => .nor f.rd f.rs f.rt
  | .slt => .slt f.rd f.rs f.rt

/-- The I-format instruction of a tag, with the fields it uses (R89, R92). -/
def ITag.build (f : IFields) : ITag → Instr
  | .beq => .beq f.rs f.rt f.imm
  | .bne => .bne f.rs f.rt f.imm
  | .blez => .blez f.rs f.imm
  | .bgtz => .bgtz f.rs f.imm
  | .addi => .addi f.rt f.rs f.imm
  | .addiu => .addiu f.rt f.rs f.imm
  | .slti => .slti f.rt f.rs f.imm
  | .andi => .andi f.rt f.rs f.imm
  | .ori => .ori f.rt f.rs f.imm
  | .xori => .xori f.rt f.rs f.imm
  | .lui => .lui f.rt f.imm
  | .lb => .lb f.rt f.rs f.imm
  | .lh => .lh f.rt f.rs f.imm
  | .lw => .lw f.rt f.rs f.imm
  | .sb => .sb f.rt f.rs f.imm
  | .sh => .sh f.rt f.rs f.imm
  | .sw => .sw f.rt f.rs f.imm

/-- The J-format instruction of a tag. -/
def JTag.build (f : JFields) : JTag → Instr
  | .j => .j f.target
  | .jal => .jal f.target

/-- The instruction a decoded word denotes, or none when `classify` gives none (R90). -/
def Decoded.instr : Decoded → Option Instr
  | .r f => (functTag f.funct).map (RTag.build f)
  | .i f => (opcodeITag f.opcode).map (ITag.build f)
  | .j f => (opcodeJTag f.opcode).map (JTag.build f)

/-- Why the decoder rejects (R93). -/
inductive Reject where
  /-- Fewer than four bytes were given (R80: every instruction is one 32-bit word). -/
  | tooShort
  /-- The opcode is not in R89's map. -/
  | illegalOpcode (opcode : BitVec 6)
  /-- The opcode is 0 and the funct is not in R91's map. -/
  | illegalFunct (funct : BitVec 6)
deriving DecidableEq, Repr

/-- The reason a decoded word without an instruction is rejected for (R93). -/
def Decoded.reject : Decoded → Reject
  | .r f => .illegalFunct f.funct
  | .i f => .illegalOpcode f.opcode
  | .j f => .illegalOpcode f.opcode

/-- The instruction of a word, or the name of what is illegal about it (R82, R90, R93). -/
def decodeInstr (w : Word) : Except Reject Instr :=
  match (decodeWord w).instr with
  | some i => .ok i
  | none => .error (decodeWord w).reject

/-- The instruction at the head of a list of bytes as memory holds them, with the bytes after it (R54, R80). -/
def decodeBytes : List Byte → Except Reject (Instr × List Byte)
  | b0 :: b1 :: b2 :: b3 :: rest =>
    match decodeInstr (leWord b0 b1 b2 b3) with
    | .ok i => .ok (i, rest)
    | .error r => .error r
  | _ => .error .tooShort

/-! ### The encoder (R96) -/

/-- `encodeR(rs, rt, rd, shamt, funct)` (R96). -/
def encodeR (rs rt rd : Reg) (shamt : BitVec 5) (funct : BitVec 6) : Word :=
  0b000000#6 ++ regBits rs ++ regBits rt ++ regBits rd ++ shamt ++ funct

/-- `encodeI(opcode, rs, rt, imm16)` (R96). -/
def encodeI (opcode : BitVec 6) (rs rt : Reg) (imm : BitVec 16) : Word :=
  opcode ++ regBits rs ++ regBits rt ++ imm

/-- `encodeJ(opcode, target26)` (R96). -/
def encodeJ (opcode : BitVec 6) (target : BitVec 26) : Word :=
  opcode ++ target

/-- The word of a decoded word's fields: the inverse of `decodeWord` (R96). -/
def Decoded.encode : Decoded → Word
  | .r f => encodeR f.rs f.rt f.rd f.shamt f.funct
  | .i f => encodeI f.opcode f.rs f.rt f.imm
  | .j f => encodeJ f.opcode f.target

/-- The word of a well-formed instruction; a field the instruction ignores (R92) is encoded as zero. -/
def encode : Instr → Word
  | .sll rd rt shamt => encodeR 0 rt rd (BitVec.ofNat 5 shamt) RTag.sll.funct
  | .srl rd rt shamt => encodeR 0 rt rd (BitVec.ofNat 5 shamt) RTag.srl.funct
  | .sra rd rt shamt => encodeR 0 rt rd (BitVec.ofNat 5 shamt) RTag.sra.funct
  | .jr rs => encodeR rs 0 0 0#5 RTag.jr.funct
  | .jalr rd rs => encodeR rs 0 rd 0#5 RTag.jalr.funct
  | .mfhi rd => encodeR 0 0 rd 0#5 RTag.mfhi.funct
  | .mthi rs => encodeR rs 0 0 0#5 RTag.mthi.funct
  | .mflo rd => encodeR 0 0 rd 0#5 RTag.mflo.funct
  | .mtlo rs => encodeR rs 0 0 0#5 RTag.mtlo.funct
  | .mult rs rt => encodeR rs rt 0 0#5 RTag.mult.funct
  | .multu rs rt => encodeR rs rt 0 0#5 RTag.multu.funct
  | .div rs rt => encodeR rs rt 0 0#5 RTag.div.funct
  | .divu rs rt => encodeR rs rt 0 0#5 RTag.divu.funct
  | .add rd rs rt => encodeR rs rt rd 0#5 RTag.add.funct
  | .addu rd rs rt => encodeR rs rt rd 0#5 RTag.addu.funct
  | .sub rd rs rt => encodeR rs rt rd 0#5 RTag.sub.funct
  | .subu rd rs rt => encodeR rs rt rd 0#5 RTag.subu.funct
  | .and rd rs rt => encodeR rs rt rd 0#5 RTag.and.funct
  | .or rd rs rt => encodeR rs rt rd 0#5 RTag.or.funct
  | .xor rd rs rt => encodeR rs rt rd 0#5 RTag.xor.funct
  | .nor rd rs rt => encodeR rs rt rd 0#5 RTag.nor.funct
  | .slt rd rs rt => encodeR rs rt rd 0#5 RTag.slt.funct
  | .j target => encodeJ JTag.j.opcode target
  | .jal target => encodeJ JTag.jal.opcode target
  | .beq rs rt off => encodeI ITag.beq.opcode rs rt off
  | .bne rs rt off => encodeI ITag.bne.opcode rs rt off
  | .blez rs off => encodeI ITag.blez.opcode rs 0 off
  | .bgtz rs off => encodeI ITag.bgtz.opcode rs 0 off
  | .addi rt rs imm => encodeI ITag.addi.opcode rs rt imm
  | .addiu rt rs imm => encodeI ITag.addiu.opcode rs rt imm
  | .slti rt rs imm => encodeI ITag.slti.opcode rs rt imm
  | .andi rt rs imm => encodeI ITag.andi.opcode rs rt imm
  | .ori rt rs imm => encodeI ITag.ori.opcode rs rt imm
  | .xori rt rs imm => encodeI ITag.xori.opcode rs rt imm
  | .lui rt imm => encodeI ITag.lui.opcode 0 rt imm
  | .lb rt rs imm => encodeI ITag.lb.opcode rs rt imm
  | .lh rt rs imm => encodeI ITag.lh.opcode rs rt imm
  | .lw rt rs imm => encodeI ITag.lw.opcode rs rt imm
  | .sb rt rs imm => encodeI ITag.sb.opcode rs rt imm
  | .sh rt rs imm => encodeI ITag.sh.opcode rs rt imm
  | .sw rt rs imm => encodeI ITag.sw.opcode rs rt imm

/-- The bits of a word that take part in the instruction: all but the fields R92 lists as ignored. -/
def Instr.usedBits : Instr → Word
  | .sll _ _ _ => 0xFC1FFFFF#32  -- rs ignored
  | .srl _ _ _ => 0xFC1FFFFF#32  -- rs ignored
  | .sra _ _ _ => 0xFC1FFFFF#32  -- rs ignored
  | .jr _ => 0xFFE0003F#32  -- rt, rd, shamt ignored
  | .jalr _ _ => 0xFFE0F83F#32  -- rt, shamt ignored
  | .mfhi _ => 0xFC00F83F#32  -- rs, rt, shamt ignored
  | .mthi _ => 0xFFE0003F#32  -- rt, rd, shamt ignored
  | .mflo _ => 0xFC00F83F#32  -- rs, rt, shamt ignored
  | .mtlo _ => 0xFFE0003F#32  -- rt, rd, shamt ignored
  | .mult _ _ => 0xFFFF003F#32  -- rd, shamt ignored
  | .multu _ _ => 0xFFFF003F#32  -- rd, shamt ignored
  | .div _ _ => 0xFFFF003F#32  -- rd, shamt ignored
  | .divu _ _ => 0xFFFF003F#32  -- rd, shamt ignored
  | .add _ _ _ => 0xFFFFF83F#32  -- shamt ignored
  | .addu _ _ _ => 0xFFFFF83F#32  -- shamt ignored
  | .sub _ _ _ => 0xFFFFF83F#32  -- shamt ignored
  | .subu _ _ _ => 0xFFFFF83F#32  -- shamt ignored
  | .and _ _ _ => 0xFFFFF83F#32  -- shamt ignored
  | .or _ _ _ => 0xFFFFF83F#32  -- shamt ignored
  | .xor _ _ _ => 0xFFFFF83F#32  -- shamt ignored
  | .nor _ _ _ => 0xFFFFF83F#32  -- shamt ignored
  | .slt _ _ _ => 0xFFFFF83F#32  -- shamt ignored
  | .j _ => 0xFFFFFFFF#32
  | .jal _ => 0xFFFFFFFF#32
  | .beq _ _ _ => 0xFFFFFFFF#32
  | .bne _ _ _ => 0xFFFFFFFF#32
  | .blez _ _ => 0xFFE0FFFF#32  -- rt ignored
  | .bgtz _ _ => 0xFFE0FFFF#32  -- rt ignored
  | .addi _ _ _ => 0xFFFFFFFF#32
  | .addiu _ _ _ => 0xFFFFFFFF#32
  | .slti _ _ _ => 0xFFFFFFFF#32
  | .andi _ _ _ => 0xFFFFFFFF#32
  | .ori _ _ _ => 0xFFFFFFFF#32
  | .xori _ _ _ => 0xFFFFFFFF#32
  | .lui _ _ => 0xFC1FFFFF#32  -- rs ignored
  | .lb _ _ _ => 0xFFFFFFFF#32
  | .lh _ _ _ => 0xFFFFFFFF#32
  | .lw _ _ _ => 0xFFFFFFFF#32
  | .sb _ _ _ => 0xFFFFFFFF#32
  | .sh _ _ _ => 0xFFFFFFFF#32
  | .sw _ _ _ => 0xFFFFFFFF#32

/-- The word `w mod 2^nbits`, laid out as the hardware stores it. -/
def tableWordBytes (nbits w : Nat) : List Byte := leBytes 4 (BitVec.ofNat 32 (w % 2 ^ nbits))

/-- The instruction the decoder reads from an instruction whose `nbits` low bits are `w` and whose other bits are 0,
numbered as spec/opcode_table.json numbers them; none where it rejects. -/
def decodeTableWord (nbits w : Nat) : Option Instr :=
  match decodeBytes (tableWordBytes nbits w) with
  | .ok (i, _) => some i
  | .error _ => none

end Sys2Proof
end

