-- ==== Sys2Proof/Machine/Operands.lean ====
section
/-! DEFINITION. Operand forms: how an immediate is extended, how addresses and targets are formed, how a loaded datum is
extended (spec/00_scope.md R12; spec/30_encoding.md R85 to R87; spec/43_loadstore.md R180). -/

namespace Sys2Proof.Machine

/-- `sext_32` of an N-bit value (R12). -/
def sext32 {n : Nat} (v : BitVec n) : Word := v.signExtend 32

/-- `zext_32` of an N-bit value (R12). -/
def zext32 {n : Nat} (v : BitVec n) : Word := v.zeroExtend 32

/-- lui's operand, `imm16 || 0x0000` (R85, R166). -/
def upperImm (imm : BitVec 16) : Word := imm ++ 0x0000#16

/-- The effective address of a load or store, modulo 2^32 (R180, R61). -/
def effectiveAddress (base : Word) (imm : BitVec 16) : Word := base + sext32 imm

/-- The target of a taken branch at `pc`, modulo 2^32 (R86, R210). -/
def branchTarget (pc : Word) (off : BitVec 16) : Word := pc + 4#32 + (sext32 off <<< 2)

/-- The target of a jump at `pc`: `(PC + 4)[31:28] || target26 || 0b00` (R87). -/
def jumpTarget (pc : Word) (target : BitVec 26) : Word :=
  (pc + 4#32).extractLsb' 28 4 ++ target ++ 0b00#2

/-- The link of jal and jalr, and the target of a branch that is not taken: `PC + 8` (R201, R214). -/
def afterSlot (pc : Word) : Word := pc + 8#32

/-- The width of an access: 1, 2 or 4 bytes (R63). -/
inductive Width where
  | byte
  | half
  | word
deriving DecidableEq, Repr

/-- The number of bytes of an access (R63). -/
def Width.bytes : Width → Nat
  | .byte => 1
  | .half => 2
  | .word => 4

/-- Whether an address is a multiple of the access width: a byte always, a halfword when bit 0 is 0, a word when bits
1:0 are 0 (spec/20_memory.md R58). -/
def Width.aligned (w : Width) (a : Word) : Bool :=
  match w with
  | .byte => true
  | .half => a.extractLsb' 0 1 == 0#1
  | .word => a.extractLsb' 0 2 == 0#2

end Sys2Proof.Machine
end

