-- ==== Sys2Proof/Config.lean ====
section
/-! DEFINITION. The open parameters of the hardware (spec/00_scope.md R9; D14): the ordered list of memory regions and
the text base. They are fixed from creation to process end (R274) and stand in State as `cfg`, so that a statement about
every state is a statement about every configuration. -/

namespace Sys2Proof

/-- One region of the address space: its name, its first address (`begin`) and its last address (`end`), both
included (spec/20_memory.md R51). -/
structure Region where
  name  : String
  first : Word
  last  : Word
deriving DecidableEq, Repr

/-- `REGIONS` and `TEXT_BASE` (R9, R52). -/
structure Config where
  regions  : List Region
  textBase : Word
deriving DecidableEq, Repr

/-- Two regions share no address (R51). -/
abbrev Region.Disjoint (r q : Region) : Prop := r.last < q.first ∨ q.last < r.first

/-- What the spec asks of the parameters: `begin <= end` in every region, regions pairwise disjoint, and `TEXT_BASE` is
the `begin` of the region named text (R9, R51, R52). -/
abbrev Config.WellFormed (c : Config) : Prop :=
  (∀ r ∈ c.regions, r.first ≤ r.last) ∧
  c.regions.Pairwise Region.Disjoint ∧
  (∃ r ∈ c.regions, r.name = "text" ∧ r.first = c.textBase)

end Sys2Proof
end

