-- ==== Sys2Proof/Machine/Platform.lean ====
section
/-! DEFINITION. The values of the open parameters that `State.reset` stands on: the spec's own defaults
(spec/00_scope.md R9; D14). DESIGN CHOICE (log entry 1): the source gives no addresses. -/

namespace Sys2Proof.Machine

/-- The default parameters: text at 0x00400000, data at 0x10010000, stack at 0x7FFF0000 (R9). -/
def defaultConfig : Config where
  regions :=
    [ { name := "text",  first := 0x00400000#32, last := 0x0040FFFF#32 },
      { name := "data",  first := 0x10010000#32, last := 0x1001FFFF#32 },
      { name := "stack", first := 0x7FFF0000#32, last := 0x7FFFFFFF#32 } ]
  textBase := 0x00400000#32

end Sys2Proof.Machine
end

