-- ==== Sys2Proof/Machine/State.lean ====
section
/-! DEFINITION. The state of the block as plain data: the two generations of the register state (spec/10_state.md R20 to
R36), the memory bytes of the regions, the recorded program image (R34), and the parameters `REGIONS` and `TEXT_BASE`
(spec/00_scope.md R9). -/

namespace Sys2Proof.Machine

/-- Memory contents: the bytes that are not zero, addresses strictly rising. An unlisted address holds `0x00`, the
value `initialize()` gives every memory byte (R35, R270) and what an unmapped byte reads as
(spec/20_memory.md R55, R57). -/
abbrev Memory := List Host.Cell

/-- The fault causes (spec/60_exceptions.md R230). Each one stops the cycle controller (R236). -/
inductive Cause where
  /-- A word that denotes no instruction (spec/30_encoding.md R93). -/
  | illegalInstruction
  /-- Signed overflow of add, sub or addi (R231). -/
  | arithmeticOverflow
  /-- div or divu with a zero divisor (R232). -/
  | divisionByZero
  /-- A misaligned data access or fetch (R233). -/
  | unalignedAccess
  /-- A fetch with any byte outside every region (R234). -/
  | unmappedFetch
  /-- A control-transfer instruction in a delay slot (R235). -/
  | branchInDelaySlot
deriving DecidableEq, Repr

/-- The fault record while its cause is not 0 (spec/10_state.md R33): the PC of the faulting cycle, the fetched word
and the faulting address, each of the last two possibly absent. -/
structure FaultRecord where
  cause : Cause
  pc    : Word
  word  : Option Word
  addr  : Option Word
deriving DecidableEq, Repr

/-- One generation of the register state (spec/10_state.md R36). -/
structure Generation where
  /-- `r0` to `r31` (R20); every access goes through `Generation.x` and `Generation.setX`, which hard-wire `r0`. -/
  gpr : Vector Word 32
  /-- `HI` (R27). -/
  hi : Word
  /-- `LO` (R27). -/
  lo : Word
  /-- The address of the instruction to fetch next (R24). -/
  pc : Word
  /-- The pending-target register (R30): `some t` is `valid = 1, addr = t`; `none` is `valid = 0`, where the spec gives
  `addr` no value (log entry 3). -/
  pending : Option Word
  /-- The instruction counter `IC`, unbounded (R32). -/
  ic : Nat
  /-- The run flag: true is RUNNING, false is STOPPED (R31). -/
  run : Bool
  /-- The fault record (R33); `none` is `cause = 0`, where the spec gives the other fields no value (log entry 4). -/
  fault : Option FaultRecord
deriving DecidableEq, Repr

/-- The state of the block. -/
structure State where
  /-- The committed generation, the only one the executor reads (R36, R37). -/
  current : Generation
  /-- The generation being written by the cycle (R36, R37). -/
  next : Generation
  /-- Memory, held in one copy (R34). -/
  mem : Memory
  /-- The words of the last loaded program; the recorded size is its length (R34, R271). -/
  image : List Word
  /-- `REGIONS` and `TEXT_BASE` (R9); nothing changes them (R274). -/
  cfg : Config
deriving DecidableEq, Repr

/-- Why a step of the model could end in a fault outcome: never. Every error condition of the block is an ordinary commit
that clears the run flag and fills the fault record (R236), so it is a next state; this type has no constructor, and
"no step faults" holds by its emptiness. -/
inductive Fault where
deriving DecidableEq, Repr

/-- Why the model gives something no meaning. -/
inductive Refusal where
  /-- Raised by an arm of `exec` for an instruction without a meaning; no arm does. Safe: the model stops. -/
  | notModelled (mnemonic : String)
  /-- Raised by the host's `read_memory_word` and `write_memory_word` at an address that is not a multiple of 4
  (spec/70_reset_and_hazards.md R285, D22: "refused, changing nothing and returning no value"); no step raises it. Safe:
  the model gives the call no meaning. -/
  | hostMisaligned (addr : Word)
deriving DecidableEq, Repr

/-- The register state `initialize()` sets under the parameters `c` (spec/10_state.md R35; R270). -/
def Generation.initial (c : Config) : Generation where
  gpr := Vector.replicate 32 0#32
  hi := 0#32
  lo := 0#32
  pc := c.textBase
  pending := none
  ic := 0
  run := true
  fault := none

/-- The machine right after `initialize()`, with no program loaded yet, under the default parameters (R35; log entries
1 and 5). -/
def State.reset : State where
  current := Generation.initial defaultConfig
  next := Generation.initial defaultConfig
  mem := []
  image := []
  cfg := defaultConfig

end Sys2Proof.Machine
end

