-- ==== Sys2Proof/Machine/Ops.lean ====
section
/-! DEFINITION. The shared operations of the machine: registers (r0 hard-wired), region lookup, the memory primitives,
the fetch, the execute phase's commit into the next generation, and the taking of a fault. Meanings are written over
these. -/

namespace Sys2Proof.Machine

/-! ### General registers (spec/10_state.md R20 to R23) -/

/-- Read register `i`; `r0` reads as zero (R22). -/
def Generation.x (g : Generation) (i : Reg) : Word := if i = 0 then 0#32 else g.gpr[i.val]

/-- Write register `i`; a write of `r0` is discarded (R22). -/
def Generation.setX (g : Generation) (i : Reg) (v : Word) : Generation :=
  if i = 0 then g else { g with gpr := g.gpr.set i.val v }

/-- `x[i]` in the spec's pseudocode: register `i` of the CURRENT generation (spec/00_scope.md R14). -/
def State.x (s : State) (i : Reg) : Word := s.current.x i

/-! ### Memory bytes by address -/

/-- The byte an address holds; an unlisted address holds zero. -/
def Memory.read : Memory → Nat → Byte
  | [], _ => 0#8
  | (k, b) :: m, a => if k = a then b else Memory.read m a

/-- Set the byte an address holds, keeping the canonical form. -/
def Memory.write : Memory → Nat → Byte → Memory
  | [], a, v => if v = 0#8 then [] else [(a, v)]
  | (k, b) :: m, a, v =>
    if a < k then (if v = 0#8 then (k, b) :: m else (a, v) :: (k, b) :: m)
    else if a = k then (if v = 0#8 then m else (a, v) :: m)
    else (k, b) :: Memory.write m a v

/-- The canonical form: addresses strictly rising, no entry equal to what an unlisted address reads as. -/
abbrev Memory.wf (m : Memory) : Prop :=
  m.Pairwise (fun p q => p.1 < q.1) ∧ ∀ p ∈ m, p.2 ≠ 0#8

/-! ### Regions and the memory primitives (spec/20_memory.md R53 to R60) -/

/-- `begin <= a <= end` (R53). -/
def regionHolds (r : Region) (a : Word) : Bool := decide (r.first ≤ a) && decide (a ≤ r.last)

/-- The region and byte offset an address resolves to, by linear scan; none when the address is unmapped (R53). -/
def resolve (c : Config) (a : Word) : Option (Region × Nat) :=
  match c.regions.find? (fun r => regionHolds r a) with
  | some r => some (r, (a - r.first).toNat)
  | none => none

/-- Whether some region holds the address (R53). -/
def mapped (c : Config) (a : Word) : Bool := (resolve c a).isSome

/-- `byte(a)`: the region byte at a mapped address, `0x00` at an unmapped one (R55, R57). -/
def byteAt (c : Config) (m : Memory) (a : Word) : Byte :=
  if mapped c a then Memory.read m a.toNat else 0#8

/-- Write one byte; at an unmapped address nothing is written (R56, R57). -/
def setByte (c : Config) (m : Memory) (a : Word) (b : Byte) : Memory :=
  if mapped c a then Memory.write m a.toNat b else m

/-- `MemRead(addr, 1)` (R55). -/
def memRead8 (c : Config) (m : Memory) (a : Word) : Byte := byteAt c m a

/-- `MemRead(addr, 2)`, little-endian, addresses modulo 2^32 (R54, R55). -/
def memRead16 (c : Config) (m : Memory) (a : Word) : BitVec 16 :=
  leHalf (byteAt c m a) (byteAt c m (a + 1#32))

/-- `MemRead(addr, 4)`, little-endian, addresses modulo 2^32 (R54, R55). -/
def memRead32 (c : Config) (m : Memory) (a : Word) : Word :=
  leWord (byteAt c m a) (byteAt c m (a + 1#32)) (byteAt c m (a + 2#32)) (byteAt c m (a + 3#32))

/-- Write a list of bytes at rising addresses, modulo 2^32, each mapped byte in its own region (R56, R60). -/
def writeBytes (c : Config) (m : Memory) (a : Word) : List Byte → Memory
  | [] => m
  | b :: bs => writeBytes c (setByte c m a b) (a + 1#32) bs

/-- `MemWrite(addr, n, v)`: the low `n` bytes of `v`, least significant first (R56). -/
def memWrite (c : Config) (m : Memory) (a : Word) (n : Nat) (v : Word) : Memory :=
  writeBytes c m a (leBytes n v)

/-! ### Fetch (spec/20_memory.md R62) -/

/-- The word at the PC, or the fetch fault: alignment is checked before mapping (R62, R239). -/
def fetch (s : State) : Except Cause Word :=
  let pc := s.current.pc
  if Width.word.aligned pc = false then .error .unalignedAccess
  else if mapped s.cfg pc && mapped s.cfg (pc + 1#32) && mapped s.cfg (pc + 2#32) && mapped s.cfg (pc + 3#32) then
    .ok (memRead32 s.cfg s.mem pc)
  else .error .unmappedFetch

/-! ### The execute phase and the commit logic (spec/10_state.md R37 to R41; spec/70_reset_and_hazards.md R292 to R294) -/

/-- A store: its effective address, its width and the data register's value (R293). -/
structure StoreOp where
  addr  : Word
  width : Width
  data  : Word
deriving DecidableEq, Repr

/-- What the execute phase of an instruction that raises no fault asks the commit logic for: at most one GPR write, a
write of HI and of LO, at most one redirect, at most one store (R40, R292, R293). -/
structure Effects where
  gpr      : Option (Reg × Word) := none
  hi       : Option Word := none
  lo       : Option Word := none
  redirect : Option Word := none
  store    : Option StoreOp := none
deriving DecidableEq, Repr

/-- `nxt <- copy of cur; nxt.IC <- cur.IC + 1` (R40). -/
def openCycle (cur : Generation) : Generation := { cur with ic := cur.ic + 1 }

/-- The GPR write port, gated off for `r0` (R294). -/
def writeGpr (g : Generation) : Option (Reg × Word) → Generation
  | some (i, v) => g.setX i v
  | none => g

/-- The register writes of an instruction, into the next generation (R294). -/
def writeRegs (e : Effects) (nxt : Generation) : Generation :=
  { writeGpr nxt e.gpr with hi := e.hi.getD nxt.hi, lo := e.lo.getD nxt.lo }

/-- `CommitPC(cur, nxt, inSlot)`: a delay slot takes the pending target; otherwise the PC advances by 4 and a redirect
becomes the pending target (R41). -/
def commitPC (cur : Generation) (redirect : Option Word) (nxt : Generation) : Generation :=
  match cur.pending with
  | some t => { nxt with pc := t, pending := none }
  | none => { nxt with pc := cur.pc + 4#32, pending := redirect }

/-- The cycle's memory write, if any (R38, R56). -/
def performStore (c : Config) (m : Memory) : Option StoreOp → Memory
  | some st => memWrite c m st.addr st.width.bytes st.data
  | none => m

/-- The end of a cycle's execute phase without a fault: the next generation is built from the current one, and the
memory write is performed (R38, R40, R41). The current generation is not touched. -/
def retire (e : Effects) (s : State) : State :=
  { s with
    next := commitPC s.current e.redirect (writeRegs e (openCycle s.current))
    mem := performStore s.cfg s.mem e.store }

/-- An instruction's execute phase ends without a fault. -/
def finish (e : Effects) (s : State) : Host.Outcome State Fault Refusal := .next (retire e s)

/-! ### Fault codes (spec/60_exceptions.md R230; D12) -/

/-- The code of a cause in the fault record (R230). -/
def Cause.code : Cause → BitVec 3
  | .illegalInstruction => 1#3
  | .arithmeticOverflow => 2#3
  | .divisionByZero => 3#3
  | .unalignedAccess => 4#3
  | .unmappedFetch => 5#3
  | .branchInDelaySlot => 6#3

/-- `fault.cause` as the host reads it: 0 while nothing has faulted (spec/10_state.md R33). -/
def Generation.faultCode (g : Generation) : BitVec 3 :=
  match g.fault with
  | some r => r.cause.code
  | none => 0#3

/-! ### Taking a fault (spec/60_exceptions.md R236). There is no trap return (R242): a stopped machine is left only by
`initialize()` and `reset()`, in Machine/HostOps.lean. -/

/-- How a faulting cycle commits, this and only this: everything unchanged but `IC`, the run flag and the fault record
(R236). -/
def takeFault (cause : Cause) (word addr : Option Word) (s : State) : State :=
  { s with
    next := { s.current with
      ic := s.current.ic + 1
      run := false
      fault := some { cause := cause, pc := s.current.pc, word := word, addr := addr } } }

/-- A fault of the fetch: no word, and the PC as the address (R230, R239). -/
def takeFetchFault (cause : Cause) (s : State) : State := takeFault cause none (some s.current.pc) s

/-- IllegalInstruction of a fetched word (R93, R230). -/
def takeIllegal (w : Word) (s : State) : State := takeFault .illegalInstruction (some w) none s

/-- The word of the executing instruction: the one at the PC, which no phase before the commit has changed (R38, R40; log
entry 6). -/
def fetchedWord (s : State) : Word := memRead32 s.cfg s.mem s.current.pc

/-- `raise <Cause>(info)` of an instruction's execute phase: its word is recorded, and an address for a misaligned access
(spec/00_scope.md R16; R230). -/
def raise (cause : Cause) (addr : Option Word) (s : State) : Host.Outcome State Fault Refusal :=
  .next (takeFault cause (some (fetchedWord s)) addr s)

/-! ### Shapes shared by several instructions -/

/-- An instruction that writes one GPR and nothing else (R23). -/
def finishGpr (d : Reg) (v : Word) (s : State) : Host.Outcome State Fault Refusal :=
  finish { gpr := some (d, v) } s

/-- A control transfer: in a delay slot it raises BranchInDelaySlot before it reads or writes anything
(spec/44_control.md R202); otherwise it writes `redirect(target)` and, if it links, a GPR (R200). -/
def transfer (link : Option (Reg × Word)) (target : Word) (s : State) : Host.Outcome State Fault Refusal :=
  if s.current.pending.isSome then raise .branchInDelaySlot none s
  else finish { gpr := link, redirect := some target } s

/-- A conditional branch: the taken target or, not taken, `PC + 8` (R201, R210). -/
def branch (taken : Bool) (off : BitVec 16) (s : State) : Host.Outcome State Fault Refusal :=
  transfer none (if taken then branchTarget s.current.pc off else afterSlot s.current.pc) s

/-- A load: alignment first, then the read; the datum is given by `read` at the effective address
(spec/43_loadstore.md R180, R181, R188). -/
def load (w : Width) (rt rs : Reg) (imm : BitVec 16) (read : Config → Memory → Word → Word) (s : State) :
    Host.Outcome State Fault Refusal :=
  let ea := effectiveAddress (s.x rs) imm
  if w.aligned ea then finishGpr rt (read s.cfg s.mem ea) s
  else raise .unalignedAccess (some ea) s

/-- A store: alignment first, then the write of the low bytes of `rt` (R180, R181, R188). -/
def store (w : Width) (rt rs : Reg) (imm : BitVec 16) (s : State) : Host.Outcome State Fault Refusal :=
  let ea := effectiveAddress (s.x rs) imm
  if w.aligned ea then finish { store := some { addr := ea, width := w, data := s.x rt } } s
  else raise .unalignedAccess (some ea) s

/-! ### The commit (spec/10_state.md R38) -/

/-- `current := next` (R38). -/
def commit (s : State) : State := { s with current := s.next }

/-- The commit at the end of a cycle whose execute phase answered a next state. -/
def commitOutcome : Host.Outcome State Fault Refusal → Host.Outcome State Fault Refusal
  | .next s => .next (commit s)
  | .fault f => .fault f
  | .refused r => .refused r

end Sys2Proof.Machine
end

