-- ==== Sys2Proof/Machine/Control.lean ====
section
/-! DEFINITION. spec/44_control.md: jr, jalr, beq, bne, blez, bgtz, j, jal. Each writes `redirect(t)`, never the PC
(spec/00_scope.md R17); the delay slot runs before `t` is entered (R200). -/

namespace Sys2Proof.Machine

/-- jr: the target is read in this cycle (R204). -/
def execJr (rs : Reg) (s : State) : Host.Outcome State Fault Refusal := transfer none (s.x rs) s

/-- jalr: the old value of `rs` is the target; the link is `PC + 8` (R205, C2, D8). -/
def execJalr (rd rs : Reg) (s : State) : Host.Outcome State Fault Refusal :=
  transfer (some (rd, afterSlot s.current.pc)) (s.x rs) s

/-- beq (R206). -/
def execBeq (rs rt : Reg) (off : BitVec 16) (s : State) : Host.Outcome State Fault Refusal :=
  branch (s.x rs == s.x rt) off s

/-- bne (R207). -/
def execBne (rs rt : Reg) (off : BitVec 16) (s : State) : Host.Outcome State Fault Refusal :=
  branch (s.x rs != s.x rt) off s

/-- blez: signed comparison with zero (R208, D32). -/
def execBlez (rs : Reg) (off : BitVec 16) (s : State) : Host.Outcome State Fault Refusal :=
  branch (leZero (s.x rs)) off s

/-- bgtz: signed comparison with zero (R209, D32). -/
def execBgtz (rs : Reg) (off : BitVec 16) (s : State) : Host.Outcome State Fault Refusal :=
  branch (gtZero (s.x rs)) off s

/-- j (R212). -/
def execJ (target : BitVec 26) (s : State) : Host.Outcome State Fault Refusal :=
  transfer none (jumpTarget s.current.pc target) s

/-- jal: the link `PC + 8` goes to `r31` (R213). -/
def execJal (target : BitVec 26) (s : State) : Host.Outcome State Fault Refusal :=
  transfer (some (31, afterSlot s.current.pc)) (jumpTarget s.current.pc target) s

end Sys2Proof.Machine
end

