-- ==== Sys2Proof/Machine/IAlu.lean ====
section
/-! DEFINITION. spec/42_i_alu.md: addi, addiu, andi, ori, xori, slti, lui. The extension of each immediate is
spec/30_encoding.md R85. -/

namespace Sys2Proof.Machine

/-- addi: traps on signed overflow, `rt` then not written, also when `rt` is `r0` (R160, D31). -/
def execAddi (rt rs : Reg) (imm : BitVec 16) (s : State) : Host.Outcome State Fault Refusal :=
  if addOverflows (s.x rs) (sext32 imm) then raise .arithmeticOverflow none s
  else finishGpr rt (s.x rs + sext32 imm) s

/-- addiu: sign-extended, wraps modulo 2^32 (R161). -/
def execAddiu (rt rs : Reg) (imm : BitVec 16) (s : State) : Host.Outcome State Fault Refusal :=
  finishGpr rt (s.x rs + sext32 imm) s

/-- slti: the immediate is sign-extended and compared signed (R165, D30). -/
def execSlti (rt rs : Reg) (imm : BitVec 16) (s : State) : Host.Outcome State Fault Refusal :=
  finishGpr rt (setLess (s.x rs) (sext32 imm)) s

/-- andi: zero-extended (R162). -/
def execAndi (rt rs : Reg) (imm : BitVec 16) (s : State) : Host.Outcome State Fault Refusal :=
  finishGpr rt (s.x rs &&& zext32 imm) s

/-- ori: zero-extended (R163). -/
def execOri (rt rs : Reg) (imm : BitVec 16) (s : State) : Host.Outcome State Fault Refusal :=
  finishGpr rt (s.x rs ||| zext32 imm) s

/-- xori: zero-extended (R164). -/
def execXori (rt rs : Reg) (imm : BitVec 16) (s : State) : Host.Outcome State Fault Refusal :=
  finishGpr rt (s.x rs ^^^ zext32 imm) s

/-- lui: the immediate in bits 31:16, zeros below (R166). -/
def execLui (rt : Reg) (imm : BitVec 16) (s : State) : Host.Outcome State Fault Refusal :=
  finishGpr rt (upperImm imm) s

end Sys2Proof.Machine
end

