-- ==== Sys2Proof/Machine/LoadStore.lean ====
section
/-! DEFINITION. spec/43_loadstore.md: lb, lh, lw, sb, sh, sw. The resolver's alignment check and the byte-wise access are
`load` and `store` of Machine/Ops.lean (R180, R181). -/

namespace Sys2Proof.Machine

/-- lb's datum: one byte, sign-extended (R182). -/
def loadedByte (c : Config) (m : Memory) (a : Word) : Word := sext32 (memRead8 c m a)

/-- lh's datum: two bytes, sign-extended (R183). -/
def loadedHalf (c : Config) (m : Memory) (a : Word) : Word := sext32 (memRead16 c m a)

/-- lw's datum: four bytes (R184). -/
def loadedWord (c : Config) (m : Memory) (a : Word) : Word := memRead32 c m a

/-- lb: a byte is always aligned (R182). -/
def execLb (rt rs : Reg) (imm : BitVec 16) (s : State) : Host.Outcome State Fault Refusal :=
  load .byte rt rs imm loadedByte s

/-- lh: an odd address raises UnalignedAccess (R183). -/
def execLh (rt rs : Reg) (imm : BitVec 16) (s : State) : Host.Outcome State Fault Refusal :=
  load .half rt rs imm loadedHalf s

/-- lw: an address that is not a multiple of 4 raises UnalignedAccess (R184). -/
def execLw (rt rs : Reg) (imm : BitVec 16) (s : State) : Host.Outcome State Fault Refusal :=
  load .word rt rs imm loadedWord s

/-- sb: the low byte of `rt` (R185). -/
def execSb (rt rs : Reg) (imm : BitVec 16) (s : State) : Host.Outcome State Fault Refusal :=
  store .byte rt rs imm s

/-- sh: the low two bytes of `rt` (R186). -/
def execSh (rt rs : Reg) (imm : BitVec 16) (s : State) : Host.Outcome State Fault Refusal :=
  store .half rt rs imm s

/-- sw: all four bytes of `rt` (R187). -/
def execSw (rt rs : Reg) (imm : BitVec 16) (s : State) : Host.Outcome State Fault Refusal :=
  store .word rt rs imm s

end Sys2Proof.Machine
end

