-- ==== Sys2Proof/Machine/MulDiv.lean ====
section
/-! DEFINITION. spec/41_r_muldiv.md: mult, multu, div, divu, mfhi, mflo, mthi, mtlo. Products and quotients are exact
integers, narrowed at the end (R149). -/

namespace Sys2Proof.Machine

/-- A write of HI and LO together (R148). -/
def finishHiLo (hi lo : Word) (s : State) : Host.Outcome State Fault Refusal :=
  finish { hi := some hi, lo := some lo } s

/-- The 64-bit two's-complement vector of `signed(a) * signed(b)` (R140). -/
def signedProduct (a b : Word) : BitVec 64 := BitVec.ofInt 64 (a.toInt * b.toInt)

/-- The 64-bit vector of `unsigned(a) * unsigned(b)` (R141). -/
def unsignedProduct (a b : Word) : BitVec 64 := BitVec.ofNat 64 (a.toNat * b.toNat)

/-- `signed(a) / signed(b)` truncated toward zero, as a word; `2^31` wraps to `0x80000000` (R142, D18, D19). -/
def signedQuotient (a b : Word) : Word := BitVec.ofInt 32 (a.toInt.tdiv b.toInt)

/-- The remainder `n - q * d`, with the sign of the dividend (R142, D18). -/
def signedRemainder (a b : Word) : Word := BitVec.ofInt 32 (a.toInt - a.toInt.tdiv b.toInt * b.toInt)

/-- `unsigned(a) div unsigned(b)` (R143). -/
def unsignedQuotient (a b : Word) : Word := BitVec.ofNat 32 (a.toNat / b.toNat)

/-- `unsigned(a) mod unsigned(b)` (R143). -/
def unsignedRemainder (a b : Word) : Word := BitVec.ofNat 32 (a.toNat % b.toNat)

/-- mult: the high half to HI, the low half to LO (R140). -/
def execMult (rs rt : Reg) (s : State) : Host.Outcome State Fault Refusal :=
  let p := signedProduct (s.x rs) (s.x rt)
  finishHiLo (p.extractLsb' 32 32) (p.extractLsb' 0 32) s

/-- multu (R141). -/
def execMultu (rs rt : Reg) (s : State) : Host.Outcome State Fault Refusal :=
  let p := unsignedProduct (s.x rs) (s.x rt)
  finishHiLo (p.extractLsb' 32 32) (p.extractLsb' 0 32) s

/-- div: the quotient to LO, the remainder to HI; a zero divisor raises DivisionByZero (R142). -/
def execDiv (rs rt : Reg) (s : State) : Host.Outcome State Fault Refusal :=
  if s.x rt = 0#32 then raise .divisionByZero none s
  else finishHiLo (signedRemainder (s.x rs) (s.x rt)) (signedQuotient (s.x rs) (s.x rt)) s

/-- divu (R143). -/
def execDivu (rs rt : Reg) (s : State) : Host.Outcome State Fault Refusal :=
  if s.x rt = 0#32 then raise .divisionByZero none s
  else finishHiLo (unsignedRemainder (s.x rs) (s.x rt)) (unsignedQuotient (s.x rs) (s.x rt)) s

/-- mfhi (R144). -/
def execMfhi (rd : Reg) (s : State) : Host.Outcome State Fault Refusal := finishGpr rd s.current.hi s

/-- mflo (R145). -/
def execMflo (rd : Reg) (s : State) : Host.Outcome State Fault Refusal := finishGpr rd s.current.lo s

/-- mthi: LO is unchanged (R146). -/
def execMthi (rs : Reg) (s : State) : Host.Outcome State Fault Refusal := finish { hi := some (s.x rs) } s

/-- mtlo: HI is unchanged (R147). -/
def execMtlo (rs : Reg) (s : State) : Host.Outcome State Fault Refusal := finish { lo := some (s.x rs) } s

end Sys2Proof.Machine
end

