-- ==== Sys2Proof/Machine/RAlu.lean ====
section
/-! DEFINITION. spec/40_r_alu.md: add, addu, sub, subu, and, or, xor, nor, slt, sll, srl, sra. -/

namespace Sys2Proof.Machine

/-- add: traps on signed overflow, `rd` then not written, also when `rd` is `r0` (R110, D31). -/
def execAdd (rd rs rt : Reg) (s : State) : Host.Outcome State Fault Refusal :=
  if addOverflows (s.x rs) (s.x rt) then raise .arithmeticOverflow none s
  else finishGpr rd (s.x rs + s.x rt) s

/-- addu: wraps modulo 2^32 (R111). -/
def execAddu (rd rs rt : Reg) (s : State) : Host.Outcome State Fault Refusal :=
  finishGpr rd (s.x rs + s.x rt) s

/-- sub: traps on signed overflow, `rd` then not written (R116, D31). -/
def execSub (rd rs rt : Reg) (s : State) : Host.Outcome State Fault Refusal :=
  if subOverflows (s.x rs) (s.x rt) then raise .arithmeticOverflow none s
  else finishGpr rd (s.x rs - s.x rt) s

/-- subu: wraps modulo 2^32 (R117). -/
def execSubu (rd rs rt : Reg) (s : State) : Host.Outcome State Fault Refusal :=
  finishGpr rd (s.x rs - s.x rt) s

/-- and (R112). -/
def execAnd (rd rs rt : Reg) (s : State) : Host.Outcome State Fault Refusal :=
  finishGpr rd (s.x rs &&& s.x rt) s

/-- or (R113). -/
def execOr (rd rs rt : Reg) (s : State) : Host.Outcome State Fault Refusal :=
  finishGpr rd (s.x rs ||| s.x rt) s

/-- xor (R114). -/
def execXor (rd rs rt : Reg) (s : State) : Host.Outcome State Fault Refusal :=
  finishGpr rd (s.x rs ^^^ s.x rt) s

/-- nor: bitwise NOT of the bitwise OR (R115). -/
def execNor (rd rs rt : Reg) (s : State) : Host.Outcome State Fault Refusal :=
  finishGpr rd (~~~(s.x rs ||| s.x rt)) s

/-- slt: 1 if signed `rs < rt`, else 0 (R118). -/
def execSlt (rd rs rt : Reg) (s : State) : Host.Outcome State Fault Refusal :=
  finishGpr rd (setLess (s.x rs) (s.x rt)) s

/-- sll: zeros enter at bit 0 (R119). -/
def execSll (rd rt : Reg) (shamt : Nat) (s : State) : Host.Outcome State Fault Refusal :=
  finishGpr rd (s.x rt <<< shamt) s

/-- srl: zeros enter at bit 31 (R120). -/
def execSrl (rd rt : Reg) (shamt : Nat) (s : State) : Host.Outcome State Fault Refusal :=
  finishGpr rd (s.x rt >>> shamt) s

/-- sra: copies of bit 31 enter at bit 31 (R121). -/
def execSra (rd rt : Reg) (shamt : Nat) (s : State) : Host.Outcome State Fault Refusal :=
  finishGpr rd ((s.x rt).sshiftRight shamt) s

end Sys2Proof.Machine
end

