-- ==== Sys2Proof/Machine/Cycle.lean ====
section
/-! DEFINITION. One cycle of a RUNNING machine (spec/10_state.md R40): fetch, decode, classify, execute, commit; and the
placing of an instruction's bytes at the PC. `step` (Machine/Step.lean) only calls these. -/

namespace Sys2Proof.Machine

/-- The phases after the fetch of the word `w` (R40, R90, R93). -/
def runWord (w : Word) (s : State) : Host.Outcome State Fault Refusal :=
  match decodeInstr w with
  | .ok i => commitOutcome (exec i s)
  | .error _ => .next (commit (takeIllegal w s))

/-- One whole cycle, whose phases raise at most one fault, the first in their order (R40; spec/60_exceptions.md R239). -/
def cycle (s : State) : Host.Outcome State Fault Refusal :=
  match fetch s with
  | .ok w => runWord w s
  | .error cause => .next (commit (takeFetchFault cause s))

/-- `s` with the run flag set in both generations (an instruction runs only in a RUNNING machine, R43). -/
def State.running (s : State) : State :=
  { s with current := { s.current with run := true }, next := { s.next with run := true } }

/-- `s` with bytes at the PC, as a `load` at the text base leaves them (spec/70_reset_and_hazards.md R271, R273). -/
def State.placeAtPc (s : State) (bytes : List Byte) : State :=
  { s with mem := writeBytes s.cfg s.mem s.current.pc bytes }

end Sys2Proof.Machine
end

