-- ==== Sys2Proof/Machine/Step.lean ====
section
/-! DEFINITION. The step: one cycle (spec/10_state.md R40); and, when the run flag is 0, no cycle at all (R43). -/

namespace Sys2Proof.Machine

/-- One step: nothing when STOPPED (R43); otherwise one whole cycle (R40). -/
def step (s : State) : Host.Outcome State Fault Refusal :=
  match s.current.run with
  | false => .next s
  | true => cycle s

/-- `s` with the instruction `w mod 2^nbits` stored at the PC, the machine RUNNING: what a `load` of the program does at
the text base (spec/70_reset_and_hazards.md R271, R273; log entry 7). -/
def State.withFetchWord (s : State) (nbits w : Nat) : State :=
  s.running.placeAtPc (tableWordBytes nbits w)

end Sys2Proof.Machine
end

