-- ==== Sys2Proof/Machine/Block.lean ====
section
/-! DEFINITION. The block as hardware (spec/70_reset_and_hazards.md R290 to R295; D25): the decoder, the ALU execution
engine and the load/store address resolver as combinational functions on signals, and the register file and PC commit
logic at the clock edge. It is a second view of the cycle, written from the signal lists; `step` does not use it. The
data outputs of a write that is not enabled are 0 (log entry 10). -/

namespace Sys2Proof.Machine

/-! ### Decoder (R291) -/

/-- The decoder's outputs; `tag = none` is the output `illegal` (R291). -/
structure DecoderOut where
  opcode   : BitVec 6
  rs       : BitVec 5
  rt       : BitVec 5
  rd       : BitVec 5
  shamt    : BitVec 5
  funct    : BitVec 6
  imm16    : BitVec 16
  target26 : BitVec 26
  format   : Format
  tag      : Option Tag
deriving DecidableEq, Repr

/-- The decoder: it holds no state and has no failure output other than `tag = illegal` (R291). -/
def decoder (instr : Word) : DecoderOut where
  opcode := opcodeOf instr
  rs := instr.extractLsb' 21 5
  rt := instr.extractLsb' 16 5
  rd := instr.extractLsb' 11 5
  shamt := shamtOf instr
  funct := functOf instr
  imm16 := imm16Of instr
  target26 := target26Of instr
  format := formatOf (opcodeOf instr)
  tag := classify (decodeWord instr)

/-! ### ALU execution engine (R292) -/

/-- The engine's inputs: those R292 lists, and the fields `rt` and `rd`, which its output `gpr_waddr` needs (log entry
10). `a` is `x[rs]`, `b` is `x[rt]`. -/
structure EngineIn where
  tag          : Tag
  a            : Word
  b            : Word
  imm16        : BitVec 16
  shamt        : BitVec 5
  target26     : BitVec 26
  hi           : Word
  lo           : Word
  pc           : Word
  pendingValid : Bool
  rt           : BitVec 5
  rd           : BitVec 5
deriving DecidableEq, Repr

/-- The engine's outputs (R292). -/
structure EngineOut where
  gprWe          : Bool := false
  gprWaddr       : BitVec 5 := 0#5
  gprWdata       : Word := 0#32
  hiWe           : Bool := false
  hiWdata        : Word := 0#32
  loWe           : Bool := false
  loWdata        : Word := 0#32
  redirectValid  : Bool := false
  redirectTarget : Word := 0#32
  faultValid     : Bool := false
  faultCause     : BitVec 3 := 0#3
deriving DecidableEq, Repr

/-- Drive the GPR write port. -/
def gprOut (waddr : BitVec 5) (wdata : Word) : EngineOut :=
  { gprWe := true, gprWaddr := waddr, gprWdata := wdata }

/-- Drive HI and LO. -/
def hiLoOut (hi lo : Word) : EngineOut :=
  { hiWe := true, hiWdata := hi, loWe := true, loWdata := lo }

/-- Drive the fault output. -/
def faultOut (code : BitVec 3) : EngineOut := { faultValid := true, faultCause := code }

/-- Drive the redirect output; in a delay slot a control transfer drives the fault output instead (R202). -/
def redirectOut (inp : EngineIn) (target : Word) : EngineOut :=
  if inp.pendingValid then faultOut 6#3 else { redirectValid := true, redirectTarget := target }

/-- Drive the redirect output and the GPR write port with the link `PC + 8` (R205, R213). -/
def linkOut (inp : EngineIn) (waddr : BitVec 5) (target : Word) : EngineOut :=
  if inp.pendingValid then faultOut 6#3
  else { redirectValid := true, redirectTarget := target, gprWe := true, gprWaddr := waddr, gprWdata := inp.pc + 8#32 }

/-- A conditional branch (R201, R210). -/
def branchOut (inp : EngineIn) (taken : Bool) : EngineOut :=
  redirectOut inp (if taken then inp.pc + 4#32 + (sext32 inp.imm16 <<< 2) else inp.pc + 8#32)

/-- The R-format rules as a function of the signals (40_r_alu.md, 41_r_muldiv.md, 44_control.md). -/
def engineR (inp : EngineIn) : RTag → EngineOut
  | .sll => gprOut inp.rd (inp.b <<< inp.shamt.toNat)
  | .srl => gprOut inp.rd (inp.b >>> inp.shamt.toNat)
  | .sra => gprOut inp.rd (inp.b.sshiftRight inp.shamt.toNat)
  | .jr => redirectOut inp inp.a
  | .jalr => linkOut inp inp.rd inp.a
  | .mfhi => gprOut inp.rd inp.hi
  | .mthi => { hiWe := true, hiWdata := inp.a }
  | .mflo => gprOut inp.rd inp.lo
  | .mtlo => { loWe := true, loWdata := inp.a }
  | .mult =>
    let p := BitVec.ofInt 64 (inp.a.toInt * inp.b.toInt)
    hiLoOut (p.extractLsb' 32 32) (p.extractLsb' 0 32)
  | .multu =>
    hiLoOut (BitVec.ofNat 32 (inp.a.toNat * inp.b.toNat / 2 ^ 32)) (BitVec.ofNat 32 (inp.a.toNat * inp.b.toNat % 2 ^ 32))
  | .div =>
    if inp.b = 0#32 then faultOut 3#3 else hiLoOut (inp.a.srem inp.b) (inp.a.sdiv inp.b)
  | .divu =>
    if inp.b = 0#32 then faultOut 3#3 else hiLoOut (inp.a % inp.b) (inp.a / inp.b)
  | .add => if addOverflows inp.a inp.b then faultOut 2#3 else gprOut inp.rd (inp.a + inp.b)
  | .addu => gprOut inp.rd (inp.a + inp.b)
  | .sub => if subOverflows inp.a inp.b then faultOut 2#3 else gprOut inp.rd (inp.a - inp.b)
  | .subu => gprOut inp.rd (inp.a - inp.b)
  | .and => gprOut inp.rd (inp.a &&& inp.b)
  | .or => gprOut inp.rd (inp.a ||| inp.b)
  | .xor => gprOut inp.rd (inp.a ^^^ inp.b)
  | .nor => gprOut inp.rd (~~~(inp.a ||| inp.b))
  | .slt => gprOut inp.rd (if inp.a.slt inp.b then 1#32 else 0#32)

/-- The I-format rules as a function of the signals (42_i_alu.md, 44_control.md). A load or store drives no output here:
the resolver does its work (R292). -/
def engineI (inp : EngineIn) : ITag → EngineOut
  | .beq => branchOut inp (inp.a == inp.b)
  | .bne => branchOut inp (inp.a != inp.b)
  | .blez => branchOut inp (inp.a.sle 0#32)
  | .bgtz => branchOut inp ((0#32).slt inp.a)
  | .addi =>
    if addOverflows inp.a (sext32 inp.imm16) then faultOut 2#3 else gprOut inp.rt (inp.a + sext32 inp.imm16)
  | .addiu => gprOut inp.rt (inp.a + sext32 inp.imm16)
  | .slti => gprOut inp.rt (if inp.a.slt (sext32 inp.imm16) then 1#32 else 0#32)
  | .andi => gprOut inp.rt (inp.a &&& zext32 inp.imm16)
  | .ori => gprOut inp.rt (inp.a ||| zext32 inp.imm16)
  | .xori => gprOut inp.rt (inp.a ^^^ zext32 inp.imm16)
  | .lui => gprOut inp.rt (inp.imm16 ++ 0#16)
  | .lb => {}
  | .lh => {}
  | .lw => {}
  | .sb => {}
  | .sh => {}
  | .sw => {}

/-- The J-format rules as a function of the signals (44_control.md). -/
def engineJ (inp : EngineIn) : JTag → EngineOut
  | .j => redirectOut inp ((inp.pc + 4#32).extractLsb' 28 4 ++ inp.target26 ++ 0#2)
  | .jal => linkOut inp 31#5 ((inp.pc + 4#32).extractLsb' 28 4 ++ inp.target26 ++ 0#2)

/-- The ALU execution engine (R292). -/
def engine (inp : EngineIn) : EngineOut :=
  match inp.tag with
  | .r t => engineR inp t
  | .i t => engineI inp t
  | .j t => engineJ inp t

/-! ### Load/store address resolver (R293) -/

/-- The resolver's inputs (R293). -/
structure ResolverIn where
  base      : Word
  imm16     : BitVec 16
  width     : Width
  isStore   : Bool
  storeData : Word
deriving DecidableEq, Repr

/-- One byte of an access: its address, and its region and offset if it is mapped (R293). -/
structure Lane where
  addr  : Word
  place : Option (Region × Nat)
deriving DecidableEq, Repr

/-- `mapped[i]` (R293). -/
def Lane.mapped (l : Lane) : Bool := l.place.isSome

/-- The resolver's outputs: the effective address, the alignment fault, the lanes, the word a load assembles, and the
byte writes of a store (R293). -/
structure ResolverOut where
  ea         : Word
  alignFault : Bool
  lanes      : List Lane
  loadData   : Word
  byteWrites : List (Word × Byte)
deriving DecidableEq, Repr

/-- The lanes of an access of `n` bytes at `ea` (R293, R53). -/
def lanesAt (c : Config) (ea : Word) (n : Nat) : List Lane :=
  (List.range n).map (fun i => { addr := ea + BitVec.ofNat 32 i, place := resolve c (ea + BitVec.ofNat 32 i) })

/-- The byte a lane reads: the region byte, or 0 when it is unmapped (R55). -/
def laneByte (m : Memory) (l : Lane) : Byte := if l.mapped then Memory.read m l.addr.toNat else 0#8

/-- The word a load of the given width delivers: assembled little-endian, bytes and halfwords sign-extended (R182 to
R184). -/
def assemble (w : Width) (bytes : List Byte) : Word :=
  match w with
  | .byte => sext32 (bytes.getD 0 0#8)
  | .half => sext32 (leHalf (bytes.getD 0 0#8) (bytes.getD 1 0#8))
  | .word => leWord (bytes.getD 0 0#8) (bytes.getD 1 0#8) (bytes.getD 2 0#8) (bytes.getD 3 0#8)

/-- The load/store address resolver (R293; R180, R181; R53 to R62). -/
def resolver (c : Config) (m : Memory) (inp : ResolverIn) : ResolverOut :=
  let ea := inp.base + sext32 inp.imm16
  let lanes := lanesAt c ea inp.width.bytes
  { ea := ea
    alignFault := ea.toNat % inp.width.bytes != 0
    lanes := lanes
    loadData := assemble inp.width (lanes.map (laneByte m))
    byteWrites :=
      if inp.isStore then
        ((lanes.zip (leBytes inp.width.bytes inp.storeData)).filter (fun p => p.1.mapped)).map (fun p => (p.1.addr, p.2))
      else [] }

/-- The access the tag asks the resolver for: its width, and whether it is a store. -/
def accessOf : Tag → Option (Width × Bool)
  | .i .lb => some (.byte, false)
  | .i .lh => some (.half, false)
  | .i .lw => some (.word, false)
  | .i .sb => some (.byte, true)
  | .i .sh => some (.half, true)
  | .i .sw => some (.word, true)
  | _ => none

/-! ### Register file and PC commit logic (R294) -/

/-- The cause a code stands for (R230). -/
def causeOfCode (code : BitVec 3) : Option Cause :=
  match code with
  | 1#3 => some .illegalInstruction
  | 2#3 => some .arithmeticOverflow
  | 3#3 => some .divisionByZero
  | 4#3 => some .unalignedAccess
  | 5#3 => some .unmappedFetch
  | 6#3 => some .branchInDelaySlot
  | _ => none

/-- At the edge of a faulting cycle (R294, R236). -/
def faultEdge (g : Generation) (code : BitVec 3) (word addr : Option Word) : Generation :=
  { g with
    ic := g.ic + 1
    run := false
    fault := (causeOfCode code).map (fun c => { cause := c, pc := g.pc, word := word, addr := addr }) }

/-- At the edge of a cycle without a fault: the engine's outputs, and R41 for the PC and the pending target (R294). -/
def cleanEdge (g : Generation) (e : EngineOut) : Generation where
  gpr := if e.gprWe && e.gprWaddr != 0#5 then g.gpr.set e.gprWaddr.toNat e.gprWdata e.gprWaddr.isLt else g.gpr
  hi := if e.hiWe then e.hiWdata else g.hi
  lo := if e.loWe then e.loWdata else g.lo
  pc := g.pending.getD (g.pc + 4#32)
  pending := if g.pending.isNone && e.redirectValid then some e.redirectTarget else none
  ic := g.ic + 1
  run := g.run
  fault := g.fault

/-- The byte writes of a store, at the edge (R290). -/
def applyByteWrites (m : Memory) : List (Word × Byte) → Memory
  | [] => m
  | (a, b) :: rest => applyByteWrites (Memory.write m a.toNat b) rest

/-- The edge: both generations hold the new register state (R290, R38). -/
def edge (s : State) (g : Generation) (m : Memory) : State := { s with current := g, next := g, mem := m }

/-- The instruction side of a cycle: decode, engine, resolver, edge (R290). -/
def blockExecute (s : State) (w : Word) : State :=
  let g := s.current
  let d := decoder w
  match d.tag with
  | none => edge s (faultEdge g 1#3 (some w) none) s.mem
  | some tag =>
    let e := engine
      { tag := tag, a := g.x (regOf d.rs), b := g.x (regOf d.rt), imm16 := d.imm16, shamt := d.shamt,
        target26 := d.target26, hi := g.hi, lo := g.lo, pc := g.pc, pendingValid := g.pending.isSome,
        rt := d.rt, rd := d.rd }
    if e.faultValid then edge s (faultEdge g e.faultCause (some w) none) s.mem
    else
      match accessOf tag with
      | none => edge s (cleanEdge g e) s.mem
      | some (width, isStore) =>
        let r := resolver s.cfg s.mem
          { base := g.x (regOf d.rs), imm16 := d.imm16, width := width, isStore := isStore,
            storeData := g.x (regOf d.rt) }
        if r.alignFault then edge s (faultEdge g 4#3 (some w) (some r.ea)) s.mem
        else if isStore then edge s (cleanEdge g e) (applyByteWrites s.mem r.byteWrites)
        else edge s (cleanEdge g (gprOut d.rt r.loadData)) s.mem

/-- One clock edge of the block (R290, R295): the fetch goes through the same region lookup with width 4 (R293); when the
run flag is 0 nothing happens (R43). -/
def blockCycle (s : State) : State :=
  if s.current.run then
    let port := resolver s.cfg s.mem
      { base := s.current.pc, imm16 := 0#16, width := .word, isStore := false, storeData := 0#32 }
    if port.alignFault then edge s (faultEdge s.current 4#3 none (some port.ea)) s.mem
    else if port.lanes.all Lane.mapped then blockExecute s port.loadData
    else edge s (faultEdge s.current 5#3 none (some port.ea)) s.mem
  else s

end Sys2Proof.Machine
end

