-- ==== Sys2Proof/Machine/HostOps.lean ====
section
/-! DEFINITION. The operations the host performs on the block between cycles (spec/70_reset_and_hazards.md R270 to
R288). They are functions on State, not steps. -/

namespace Sys2Proof.Machine

/-! ### Reset and program load (R270 to R274) -/

/-- `initialize()`: memory and registers zero, PC at the text base, no pending target, `IC` 0, no fault, RUNNING, in both
generations (R270, R35). The parameters and the recorded program stay (R274). -/
def State.initialise (s : State) : State :=
  { s with current := Generation.initial s.cfg, next := Generation.initial s.cfg, mem := [] }

/-- Words written at consecutive word addresses from `a`; unmapped bytes are dropped (R271, D21). -/
def writeWords (c : Config) (m : Memory) (a : Word) : List Word → Memory
  | [] => m
  | w :: ws => writeWords c (memWrite c m a 4 w) (a + 4#32) ws

/-- `load(words)`: writes the words from the text base and records them; no register, no PC, not the run flag (R271,
C8). -/
def State.loadProgram (s : State) (words : List Word) : State :=
  { s with mem := writeWords s.cfg s.mem s.cfg.textBase words, image := words }

/-- The recorded program size (R271); no rule of the cycle reads it (R276). -/
def State.programSize (s : State) : Nat := s.image.length

/-- `reset()`: `initialize()`, then the recorded program is loaded again (R272). With no earlier load the recorded list
is empty and only `initialize()` happens. -/
def State.hostReset (s : State) : State := s.initialise.loadProgram s.image

/-! ### Running (R280 to R282, R288) -/

/-- The state a step answers; a step always answers one. -/
def advance (s : State) : State :=
  match step s with
  | .next t => t
  | .fault _ => s
  | .refused _ => s

/-- `step(n)` (also `run(n)`): cycles while fewer than `n` have run and the run flag is 1; the number executed, and the
state (R280, C9, D23). -/
def hostStep : Nat → State → Nat × State
  | 0, s => (0, s)
  | n + 1, s =>
    match s.current.run with
    | false => (0, s)
    | true => let r := hostStep n (advance s); (r.1 + 1, r.2)

/-- `run_to_completion()` from `s` ends in `t`: the first state reached by cycles whose run flag is 0 (R281, R288). A run
that no fault and no `stop()` ends has no such `t`. -/
def RunsToCompletion (s t : State) : Prop := ∃ n, (hostStep n s).2 = t ∧ t.current.run = false

/-- `stop()`: clears the run flag, in both generations; no fault record (R282). -/
def State.stop (s : State) : State :=
  { s with current := { s.current with run := false }, next := { s.next with run := false } }

/-! ### Register access (R283, R284) -/

/-- `read_register(i)`; 0 for `i = 0` (R283, R22). -/
def State.readRegister (s : State) (i : Reg) : Word := s.current.x i

/-- `read_hi()` (R283). -/
def State.readHi (s : State) : Word := s.current.hi

/-- `read_lo()` (R283). -/
def State.readLo (s : State) : Word := s.current.lo

/-- `read_pc()` (R283). -/
def State.readPc (s : State) : Word := s.current.pc

/-- The run flag as the host reads it (R283). -/
def State.readRun (s : State) : Bool := s.current.run

/-- `IC` as the host reads it (R283). -/
def State.readIc (s : State) : Nat := s.current.ic

/-- The fault record as the host reads it (R283). -/
def State.readFault (s : State) : Option FaultRecord := s.current.fault

/-- The pending target as the host reads it (R283). -/
def State.readPending (s : State) : Option Word := s.current.pending

/-- `write_register(i, v)`: both generations at once; `i = 0` changes nothing (R284, R22). -/
def State.writeRegister (s : State) (i : Reg) (v : Word) : State :=
  { s with current := s.current.setX i v, next := s.next.setX i v }

/-- `write_hi(v)`: both generations at once (R284). -/
def State.writeHi (s : State) (v : Word) : State :=
  { s with current := { s.current with hi := v }, next := { s.next with hi := v } }

/-- `write_lo(v)`: both generations at once (R284). -/
def State.writeLo (s : State) (v : Word) : State :=
  { s with current := { s.current with lo := v }, next := { s.next with lo := v } }

/-! ### Memory access (R285, R286) -/

/-- `read_memory_word(addr)`; a misaligned address is refused (R285, D22). -/
def State.readMemoryWord (s : State) (a : Word) : Except Refusal Word :=
  if Width.word.aligned a then .ok (memRead32 s.cfg s.mem a) else .error (.hostMisaligned a)

/-- `write_memory_word(addr, v)`; a misaligned address is refused, changing nothing (R285, D22). -/
def State.writeMemoryWord (s : State) (a v : Word) : Host.Outcome State Fault Refusal :=
  if Width.word.aligned a then .next { s with mem := memWrite s.cfg s.mem a 4 v }
  else .refused (.hostMisaligned a)

/-- `read_memory_byte(a)` (R286). -/
def State.readMemoryByte (s : State) (a : Word) : Byte := memRead8 s.cfg s.mem a

end Sys2Proof.Machine
end

