-- ==== Sys2Proof/Safety.lean ====
section
/-! DEFINITION. The terms claims are stated in: the invariant every step keeps, what one instruction may write (spec/10_state.md
R23, R27, R42), and how a cycle leaves the PC (R41). -/

namespace Sys2Proof.Machine

/-! ### The invariant -/

/-- Which fields a fault record holds, by cause (spec/60_exceptions.md R230): a fetch fault has no word and the PC as
address; a misaligned data access has a word and an address; the other causes a word and no address. -/
abbrev FaultRecord.Legal (r : FaultRecord) : Prop :=
  match r.cause with
  | .unalignedAccess => r.addr.isSome ∧ (r.word = none → r.addr = some r.pc)
  | .unmappedFetch => r.word = none ∧ r.addr = some r.pc
  | .illegalInstruction => r.word.isSome ∧ r.addr = none
  | .arithmeticOverflow => r.word.isSome ∧ r.addr = none
  | .divisionByZero => r.word.isSome ∧ r.addr = none
  | .branchInDelaySlot => r.word.isSome ∧ r.addr = none

/-- What holds of the state between cycles. -/
structure State.Inv (s : State) : Prop where
  /-- The two generations agree (spec/10_state.md R38). -/
  committed : s.next = s.current
  /-- Memory is in canonical form. -/
  memCanonical : Memory.wf s.mem
  /-- Only mapped addresses hold a byte (spec/20_memory.md R56). -/
  memMapped : ∀ p ∈ s.mem, p.1 < 2 ^ 32 ∧ mapped s.cfg (BitVec.ofNat 32 p.1) = true
  /-- The cell behind `r0` holds zero (R22). -/
  zeroCell : s.current.gpr[0] = 0#32
  /-- A recorded fault has stopped the machine, at the PC it records, with the fields its cause has (R33, R236). -/
  faultStops : ∀ r, s.current.fault = some r →
    s.current.run = false ∧ r.pc = s.current.pc ∧ r.Legal ∧
    (r.cause = .branchInDelaySlot → s.current.pending.isSome)

end Sys2Proof.Machine

namespace Sys2Proof

open Sys2Proof.Machine

/-! ### What an instruction may write (spec/10_state.md R23, R27) -/

/-- The control-transfer instructions: jr, jalr, beq, bne, blez, bgtz, j, jal (spec/00_scope.md R19). -/
def Instr.isTransfer : Instr → Bool
  | .jr _ | .jalr _ _ | .beq _ _ _ | .bne _ _ _ | .blez _ _ | .bgtz _ _ | .j _ | .jal _ => true
  | _ => false

/-- The general register an instruction names as its destination (R23). -/
def Instr.dest : Instr → Option Reg
  | .add rd _ _ | .addu rd _ _ | .sub rd _ _ | .subu rd _ _ | .and rd _ _ | .or rd _ _ | .xor rd _ _ | .nor rd _ _
  | .slt rd _ _ | .sll rd _ _ | .srl rd _ _ | .sra rd _ _ | .mfhi rd | .mflo rd | .jalr rd _ => some rd
  | .addi rt _ _ | .addiu rt _ _ | .andi rt _ _ | .ori rt _ _ | .xori rt _ _ | .slti rt _ _ | .lui rt _
  | .lb rt _ _ | .lh rt _ _ | .lw rt _ _ => some rt
  | .jal _ => some 31
  | _ => none

/-- The instructions that write HI (R27). -/
def Instr.writesHi : Instr → Bool
  | .mult _ _ | .multu _ _ | .div _ _ | .divu _ _ | .mthi _ => true
  | _ => false

/-- The instructions that write LO (R27). -/
def Instr.writesLo : Instr → Bool
  | .mult _ _ | .multu _ _ | .div _ _ | .divu _ _ | .mtlo _ => true
  | _ => false

/-- The data access of a load or store: its effective address and its width (R63, R180). -/
def Instr.access (s : State) : Instr → Option (Word × Width)
  | .lb _ rs imm | .sb _ rs imm => some (effectiveAddress (s.x rs) imm, .byte)
  | .lh _ rs imm | .sh _ rs imm => some (effectiveAddress (s.x rs) imm, .half)
  | .lw _ rs imm | .sw _ rs imm => some (effectiveAddress (s.x rs) imm, .word)
  | _ => none

/-- The stores (R188). -/
def Instr.isStore : Instr → Bool
  | .sb _ _ _ | .sh _ _ _ | .sw _ _ _ => true
  | _ => false

/-- The target `t` of the `redirect(t)` an instruction writes: a register, the taken branch target or `PC + 8`, or the
jump target (R201, R204 to R213). -/
def Instr.redirectTarget (s : State) : Instr → Option Word
  | .jr rs => some (s.x rs)
  | .jalr _ rs => some (s.x rs)
  | .beq rs rt off => some (if s.x rs = s.x rt then branchTarget s.current.pc off else s.current.pc + 8#32)
  | .bne rs rt off => some (if s.x rs ≠ s.x rt then branchTarget s.current.pc off else s.current.pc + 8#32)
  | .blez rs off => some (if (s.x rs).toInt ≤ 0 then branchTarget s.current.pc off else s.current.pc + 8#32)
  | .bgtz rs off => some (if (s.x rs).toInt > 0 then branchTarget s.current.pc off else s.current.pc + 8#32)
  | .j target => some (jumpTarget s.current.pc target)
  | .jal target => some (jumpTarget s.current.pc target)
  | _ => none

/-- The exact signed result of an instruction that checks it does not fit in 32 bits (R110, R116, R160). -/
def Instr.Overflows (s : State) : Instr → Prop
  | .add _ rs rt => ¬(-2 ^ 31 ≤ (s.x rs).toInt + (s.x rt).toInt ∧ (s.x rs).toInt + (s.x rt).toInt < 2 ^ 31)
  | .sub _ rs rt => ¬(-2 ^ 31 ≤ (s.x rs).toInt - (s.x rt).toInt ∧ (s.x rs).toInt - (s.x rt).toInt < 2 ^ 31)
  | .addi _ rs imm => ¬(-2 ^ 31 ≤ (s.x rs).toInt + imm.toInt ∧ (s.x rs).toInt + imm.toInt < 2 ^ 31)
  | _ => False

/-- Whether a control transfer takes its target from a register (R204, R205). -/
def Instr.jumpsThroughRegister : Instr → Bool
  | .jr _ | .jalr _ _ => true
  | _ => false

end Sys2Proof

namespace Sys2Proof.Machine

/-! ### What a host register write leaves (spec/70_reset_and_hazards.md R284) -/

/-- The general registers, HI and LO apart, two generations agree. -/
def Generation.SameControl (g h : Generation) : Prop :=
  g.pc = h.pc ∧ g.pending = h.pending ∧ g.ic = h.ic ∧ g.run = h.run ∧ g.fault = h.fault

/-- Everything but the general registers, HI and LO of the two generations is kept. -/
def OnlyRegistersWritten (s u : State) : Prop :=
  u.current.SameControl s.current ∧ u.next.SameControl s.next ∧ u.mem = s.mem ∧ u.image = s.image ∧ u.cfg = s.cfg

/-! ### What one executed instruction leaves, read through the accessors

`s` is the state `exec` starts from, `t` the state it answers; `t.next` is what the cycle commits. -/

/-- Every general register keeps its value. -/
def RegsKept (s t : State) : Prop := ∀ r, t.next.x r = s.current.x r

/-- Register `d` holds `v`, unless `d` is `r0`, and every other register keeps its value (R22, R42). -/
def RegWritten (d : Reg) (v : Word) (s t : State) : Prop :=
  ∀ r, t.next.x r = if r = d ∧ r ≠ 0 then v else s.current.x r

/-- HI and LO keep their values. -/
def HiLoKept (s t : State) : Prop := t.next.hi = s.current.hi ∧ t.next.lo = s.current.lo

/-- Every byte of memory reads as before. -/
def BytesKept (s t : State) : Prop := ∀ a, byteAt t.cfg t.mem a = byteAt s.cfg s.mem a

/-- Whether `a` is one of the `n` bytes from `ea` on, addresses modulo 2^32. -/
def InAccess (ea : Word) (n : Nat) (a : Word) : Prop := (a - ea).toNat < n

/-- The `n` bytes from `ea` on hold the low bytes of `v` where they are mapped, and every byte outside them reads as
before (spec/20_memory.md R56). -/
def BytesWritten (ea : Word) (n : Nat) (v : Word) (s t : State) : Prop :=
  (∀ a, InAccess ea n a → mapped s.cfg a = true → byteAt t.cfg t.mem a = byteOf v (a - ea).toNat) ∧
  (∀ a, InAccess ea n a → mapped s.cfg a = false → byteAt t.cfg t.mem a = 0#8) ∧
  (∀ a, ¬ InAccess ea n a → byteAt t.cfg t.mem a = byteAt s.cfg s.mem a)

/-- The PC and the pending target after a cycle that wrote `redirect` (R41): a delay slot enters the pending target;
otherwise the PC advances by 4 and the redirect becomes the pending target. -/
def PcCommitted (redirect : Option Word) (s t : State) : Prop :=
  (∀ a, s.current.pending = some a → t.next.pc = a ∧ t.next.pending = none) ∧
  (s.current.pending = none → t.next.pc = s.current.pc + 4#32 ∧ t.next.pending = redirect)

/-- `IC` rises by 1; the run flag and the fault record are kept; the current generation, the parameters and the program
record are untouched (R32, R37, R42, R274). -/
def ControlKept (s t : State) : Prop :=
  t.next.ic = s.current.ic + 1 ∧ t.next.run = s.current.run ∧ t.next.fault = s.current.fault ∧
  t.current = s.current ∧ t.cfg = s.cfg ∧ t.image = s.image

/-- The instruction wrote register `d` with `v` and nothing else. -/
def GprOnly (d : Reg) (v : Word) (s t : State) : Prop :=
  RegWritten d v s t ∧ HiLoKept s t ∧ BytesKept s t ∧ PcCommitted none s t ∧ ControlKept s t

/-- The instruction wrote HI and LO and nothing else. -/
def HiLoOnly (hi lo : Word) (s t : State) : Prop :=
  t.next.hi = hi ∧ t.next.lo = lo ∧ RegsKept s t ∧ BytesKept s t ∧ PcCommitted none s t ∧ ControlKept s t

/-- The instruction stored the low `n` bytes of `v` at `ea` and did nothing else. -/
def StoreOnly (ea : Word) (n : Nat) (v : Word) (s t : State) : Prop :=
  BytesWritten ea n v s t ∧ RegsKept s t ∧ HiLoKept s t ∧ PcCommitted none s t ∧ ControlKept s t

/-- The instruction wrote `redirect(target)` outside a delay slot, and no register. -/
def RedirectOnly (target : Word) (s t : State) : Prop :=
  t.next.pc = s.current.pc + 4#32 ∧ t.next.pending = some target ∧
  RegsKept s t ∧ HiLoKept s t ∧ BytesKept s t ∧ ControlKept s t

/-- The instruction wrote `redirect(target)` outside a delay slot, and register `d` with the link. -/
def RedirectAndLink (d : Reg) (link target : Word) (s t : State) : Prop :=
  t.next.pc = s.current.pc + 4#32 ∧ t.next.pending = some target ∧
  RegWritten d link s t ∧ HiLoKept s t ∧ BytesKept s t ∧ ControlKept s t

/-- The instruction raised `cause`: the next generation is the current one but for `IC`, the run flag and the record; no
byte of memory changes (spec/60_exceptions.md R236). -/
def Raised (cause : Cause) (word addr : Option Word) (s t : State) : Prop :=
  t.next = { s.current with
    ic := s.current.ic + 1, run := false,
    fault := some { cause := cause, pc := s.current.pc, word := word, addr := addr } } ∧
  t.mem = s.mem ∧ t.current = s.current ∧ t.cfg = s.cfg ∧ t.image = s.image

end Sys2Proof.Machine
end

