-- ==== Sys2Proof/Certificates/Slice0/Obligations.lean ====
section
/-! DEFINITION. The statements for the provers. R<n> is a rule of spec/, D<n> a decision the spec marks as its own
(spec/92_eei_decisions.md); log entry <n> is notes/assumptions/<n>.md. The predicates on two states (`GprOnly`,
`HiLoOnly`, `StoreOnly`, `RedirectOnly`, `RedirectAndLink`, `Raised`) are in Sys2Proof/Safety.lean: each says what was
written AND that everything else was kept. -/

open Sys2Proof Sys2Proof.Machine

/-! ### Decoding and encoding -/

/-- Words written out from the encodings of R81, R89 and R91 decode to the instructions they stand for, and two words
outside the maps are rejected by name. The numbers other than add's and addi's rest on D1 (log entry 9). -/
def Obligations.WrittenWordsDecode : Prop :=
  decodeInstr 0x00221820#32 = .ok (.add 3 1 2) ∧
  decodeInstr 0x00021FC3#32 = .ok (.sra 3 2 31) ∧
  decodeInstr 0x00000000#32 = .ok (.sll 0 0 0) ∧
  decodeInstr 0x00220018#32 = .ok (.mult 1 2) ∧
  decodeInstr 0x00002010#32 = .ok (.mfhi 4) ∧
  decodeInstr 0x20010005#32 = .ok (.addi 1 0 0x0005#16) ∧
  decodeInstr 0x3C021001#32 = .ok (.lui 2 0x1001#16) ∧
  decodeInstr 0x8C22FFFC#32 = .ok (.lw 2 1 0xFFFC#16) ∧
  decodeInstr 0xA0220001#32 = .ok (.sb 2 1 0x0001#16) ∧
  decodeInstr 0x0080F809#32 = .ok (.jalr 31 4) ∧
  decodeInstr 0x1420FFFD#32 = .ok (.bne 1 0 0xFFFD#16) ∧
  decodeInstr 0x0C100040#32 = .ok (.jal 0x0100040#26) ∧
  decodeInstr 0x0000000C#32 = .error (.illegalFunct 0x0C#6) ∧
  decodeInstr 0xFC000000#32 = .error (.illegalOpcode 0x3F#6)

/-- R96: the encoder's three formulas, and that it inverts the decoder: the fields come back from the word, the word
comes back from its fields, and every well-formed instruction of the table comes back from its word. -/
def Obligations.EncoderInvertsDecoder : Prop :=
  (∀ rs rt rd sh f,
    encodeR rs rt rd sh f = 0b000000#6 ++ regBits rs ++ regBits rt ++ regBits rd ++ sh ++ f ∧
    decodeWord (encodeR rs rt rd sh f) = .r { rs := rs, rt := rt, rd := rd, shamt := sh, funct := f }) ∧
  (∀ op rs rt imm, encodeI op rs rt imm = op ++ regBits rs ++ regBits rt ++ imm ∧
    (formatOf op = .i → decodeWord (encodeI op rs rt imm) = .i { opcode := op, rs := rs, rt := rt, imm := imm })) ∧
  (∀ op target, encodeJ op target = op ++ target ∧
    (formatOf op = .j → decodeWord (encodeJ op target) = .j { opcode := op, target := target })) ∧
  (∀ w, (decodeWord w).encode = w) ∧
  (∀ i : Instr, i.wf = true → decodeInstr (encode i) = .ok i)

/-- A word decodes to a well-formed instruction exactly when the word, with the instruction's ignored fields (R92, D4)
cleared, is the instruction's encoding: no bit that counts is dropped or misread, and no ignored bit counts. -/
def Obligations.DecodeIsExact : Prop :=
  ∀ (w : Word) (i : Instr), i.wf = true → (decodeInstr w = .ok i ↔ w &&& i.usedBits = encode i)

/-- Every decoded instruction is well-formed, and the bytes of a well-formed instruction, least significant first as
memory holds them (R54), decode to it and leave the bytes after it. -/
def Obligations.MemoryBytesDecode : Prop :=
  (∀ (w : Word) (i : Instr), decodeInstr w = .ok i → i.wf = true) ∧
  (∀ (i : Instr) (rest : List Byte), i.wf = true → decodeBytes (leBytes 4 (encode i) ++ rest) = .ok (i, rest))

/-- The words that denote an instruction are those whose opcode is in R89's map, or whose opcode is 0 and whose funct is
in R91's map; every other word is illegal (R93; D1, D5). -/
def Obligations.LegalWordsAreTheTable : Prop :=
  ∀ w : Word, (∃ i, decodeInstr w = .ok i) ↔
    ((opcodeOf w).toNat ∈ [0x02, 0x03, 0x04, 0x05, 0x06, 0x07, 0x08, 0x09, 0x0A, 0x0C, 0x0D, 0x0E, 0x0F,
        0x20, 0x21, 0x23, 0x28, 0x29, 0x2B] ∨
      ((opcodeOf w).toNat = 0 ∧
        (functOf w).toNat ∈ [0x00, 0x02, 0x03, 0x08, 0x09, 0x10, 0x11, 0x12, 0x13, 0x18, 0x19, 0x1A, 0x1B,
          0x20, 0x21, 0x22, 0x23, 0x24, 0x25, 0x26, 0x27, 0x2A]))

/-! ### The cycle -/

/-- A step runs the decoded instruction: when the machine is RUNNING and the four mapped bytes at an aligned PC decode to
`i`, the step is `exec i` followed by the commit `current := next` (R40, R62; the fetch's checks are D16). -/
def Obligations.StepRunsDecodedInstruction : Prop :=
  ∀ (s t : State) (i : Instr), s.current.run = true → s.current.pc.toNat % 4 = 0 →
    (∀ k < 4, mapped s.cfg (s.current.pc + BitVec.ofNat 32 k) = true) →
    decodeBytes [byteAt s.cfg s.mem s.current.pc, byteAt s.cfg s.mem (s.current.pc + 1#32),
      byteAt s.cfg s.mem (s.current.pc + 2#32), byteAt s.cfg s.mem (s.current.pc + 3#32)] = .ok (i, []) →
    exec i s = .next t → step s = .next { t with current := t.next }

/-- R43: with the run flag 0 a step changes nothing, `IC` included, and a bounded run executes zero cycles and reports
the same state; with the run flag 1 the cycle is not stopped on the way: it counts. -/
def Obligations.StoppedMachineDoesNothing : Prop :=
  (∀ s : State, s.current.run = false → step s = .next s ∧ ∀ n, hostStep n s = (0, s)) ∧
  (∀ s : State, s.current.run = true → ∃ t, step s = .next t ∧ t.current.ic = s.current.ic + 1)

/-- Every instruction executes and every step answers a next state, in every state: the error conditions are commits of
the machine, not stops of the model (R230, R236, R238). -/
def Obligations.EveryStepAnswersNext : Prop :=
  (∀ (i : Instr) (s : State), ∃ t, exec i s = .next t) ∧ (∀ s : State, ∃ t, step s = .next t)

/-- R305: every cycle, a faulting one included, adds exactly 1 to `IC`, whatever the instruction. -/
def Obligations.EveryCycleCountsOne : Prop :=
  (∀ (s t : State), s.current.run = true → step s = .next t → t.current.ic = s.current.ic + 1) ∧
  (∀ (i : Instr) (s t : State), exec i s = .next t → t.next.ic = s.current.ic + 1)

/-- R37: the executor never writes the current generation, and what it answers does not depend on what the next
generation held: it reads only `current`. -/
def Obligations.ExecutorReadsOnlyCurrent : Prop :=
  ∀ (i : Instr) (s t : State) (g : Generation), exec i s = .next t →
    t.current = s.current ∧ exec i { s with next := g } = .next t

/-- The PC and the pending target of the next generation (R41), for an instruction that raises no fault: a delay slot
enters the pending target; otherwise the PC advances by 4 and the pending target is the instruction's redirect target,
if it has one. A control transfer in a delay slot never gets here. The targets rest on D7 (not taken: `PC + 8`). -/
def Obligations.PcCommitRule : Prop :=
  ∀ (i : Instr) (s t : State), s.current.run = true → exec i s = .next t → t.next.run = true →
    (∀ a, s.current.pending = some a → i.isTransfer = false ∧ t.next.pc = a ∧ t.next.pending = none) ∧
    (s.current.pending = none → t.next.pc = s.current.pc + 4#32 ∧ t.next.pending = i.redirectTarget s)

/-- After an unfaulted control transfer outside a delay slot, the instruction at `PC + 4` runs, and only then is the PC
the target (R200; D7). -/
def Obligations.DelaySlotRunsBeforeTarget : Prop :=
  ∀ (s t u : State) (w v : Word) (i k : Instr), s.current.run = true → s.current.pending = none →
    fetch s = .ok w → decodeInstr w = .ok i → i.isTransfer = true → step s = .next t →
    fetch t = .ok v → decodeInstr v = .ok k → step t = .next u → u.current.run = true →
    t.current.pc = s.current.pc + 4#32 ∧ some u.current.pc = i.redirectTarget s ∧ u.current.pending = none

/-- An instruction that does not jump through a register keeps the PC and the pending target multiples of 4 when they
are (R203, from R86 and R87). -/
def Obligations.AlignedPcIsKept : Prop :=
  ∀ (i : Instr) (s t : State), i.jumpsThroughRegister = false → exec i s = .next t →
    s.current.pc.toNat % 4 = 0 → (∀ a, s.current.pending = some a → a.toNat % 4 = 0) →
    t.next.pc.toNat % 4 = 0 ∧ (∀ a, t.next.pending = some a → a.toNat % 4 = 0)

/-! ### Faults -/

/-- A cycle that stops the machine commits only `IC`, the run flag and the fault record: everything else is as before, and
the record names the PC of the cycle and holds the fields of its cause (R230, R236, R237; that the PC stays is D10, the
record's form D12). -/
def Obligations.FaultingCyclesArePrecise : Prop :=
  ∀ (s t : State), s.current.run = true → step s = .next t → t.current.run = false →
    ∃ r : FaultRecord, r.pc = s.current.pc ∧ r.Legal ∧
      t = { s with
        current := { s.current with ic := s.current.ic + 1, run := false, fault := some r }
        next := { s.current with ic := s.current.ic + 1, run := false, fault := some r } }

/-- A cycle raises at most one fault, the first in the order of its phases: fetch alignment, fetch mapping, illegal
instruction, control transfer in a delay slot, then the instruction's own (R239; the order is D13, the record's
form D12). -/
def Obligations.FirstFaultInPhaseOrder : Prop :=
  ∀ s : State, s.current.run = true → ∃ t, step s = .next t ∧
    (s.current.pc.toNat % 4 ≠ 0 →
      t.current.fault = some { cause := .unalignedAccess, pc := s.current.pc, word := none, addr := some s.current.pc }) ∧
    (s.current.pc.toNat % 4 = 0 → (∃ k < 4, mapped s.cfg (s.current.pc + BitVec.ofNat 32 k) = false) →
      t.current.fault = some { cause := .unmappedFetch, pc := s.current.pc, word := none, addr := some s.current.pc }) ∧
    (s.current.pc.toNat % 4 = 0 → (∀ k < 4, mapped s.cfg (s.current.pc + BitVec.ofNat 32 k) = true) →
      (∀ r, decodeInstr (fetchedWord s) = .error r →
        t.current.fault = some
          { cause := .illegalInstruction, pc := s.current.pc, word := some (fetchedWord s), addr := none }) ∧
      (∀ i, decodeInstr (fetchedWord s) = .ok i → i.isTransfer = true → s.current.pending.isSome = true →
        t.current.fault = some
          { cause := .branchInDelaySlot, pc := s.current.pc, word := some (fetchedWord s), addr := none }) ∧
      (∀ i, decodeInstr (fetchedWord s) = .ok i → (i.isTransfer = false ∨ s.current.pending = none) →
        (t.current.fault = s.current.fault ∧ t.current.run = true) ∨
        ∃ r, t.current.fault = some r ∧ r.pc = s.current.pc ∧ r.word = some (fetchedWord s) ∧
          (r.cause = .arithmeticOverflow ∨ r.cause = .divisionByZero ∨ r.cause = .unalignedAccess)))

/-- add, sub and addi: when the exact signed result fits in 32 bits it is written, and otherwise ArithmeticOverflow is
raised and nothing is written, also when the destination is `r0` (R110, R116, R160; the `r0` case
is D31, that the PC stays D10, the record's form D12, log entry 9; its word log entry 6). -/
def Obligations.OverflowIsExact : Prop :=
  (∀ (rd rs rt : Reg) (s : State),
    let n := (s.x rs).toInt + (s.x rt).toInt
    (-2 ^ 31 ≤ n ∧ n < 2 ^ 31 → ∃ t, exec (.add rd rs rt) s = .next t ∧ GprOnly rd (BitVec.ofInt 32 n) s t) ∧
    (¬(-2 ^ 31 ≤ n ∧ n < 2 ^ 31) →
      ∃ t, exec (.add rd rs rt) s = .next t ∧ Raised .arithmeticOverflow (some (fetchedWord s)) none s t)) ∧
  (∀ (rd rs rt : Reg) (s : State),
    let n := (s.x rs).toInt - (s.x rt).toInt
    (-2 ^ 31 ≤ n ∧ n < 2 ^ 31 → ∃ t, exec (.sub rd rs rt) s = .next t ∧ GprOnly rd (BitVec.ofInt 32 n) s t) ∧
    (¬(-2 ^ 31 ≤ n ∧ n < 2 ^ 31) →
      ∃ t, exec (.sub rd rs rt) s = .next t ∧ Raised .arithmeticOverflow (some (fetchedWord s)) none s t)) ∧
  (∀ (rt rs : Reg) (imm : BitVec 16) (s : State),
    let n := (s.x rs).toInt + imm.toInt
    (-2 ^ 31 ≤ n ∧ n < 2 ^ 31 → ∃ t, exec (.addi rt rs imm) s = .next t ∧ GprOnly rt (BitVec.ofInt 32 n) s t) ∧
    (¬(-2 ^ 31 ≤ n ∧ n < 2 ^ 31) →
      ∃ t, exec (.addi rt rs imm) s = .next t ∧ Raised .arithmeticOverflow (some (fetchedWord s)) none s t))

/-- R231: when the exact result of add, sub or addi does not fit, ArithmeticOverflow is recorded, the destination register
(every register) is left unmodified, and execution halts; no other execution raises it, of addu, subu, addiu or anything
else. That it is raised also when the destination is `r0` is D31 (log entry 9). -/
def Obligations.OverflowPolicy : Prop :=
  (∀ (i : Instr) (s t : State), exec i s = .next t → i.Overflows s →
    (∃ r, t.next.fault = some r ∧ r.cause = .arithmeticOverflow) ∧ (∀ k, t.next.x k = s.current.x k) ∧
    t.next.run = false ∧ step (commit t) = .next (commit t)) ∧
  (∀ (i : Instr) (s t : State) (r : FaultRecord), exec i s = .next t → t.next.fault = some r →
    t.next.fault ≠ s.current.fault → r.cause = .arithmeticOverflow → i.Overflows s) ∧
  (∀ (s : State) (rd rs rt : Reg) (imm : BitVec 16), ¬(Instr.addu rd rs rt).Overflows s ∧
    ¬(Instr.subu rd rs rt).Overflows s ∧ ¬(Instr.addiu rt rs imm).Overflows s)

/-- R232: a zero divisor is reported as DivisionByZero, HI and LO are left unmodified, and execution halts; nothing else
changes. That the PC stays is D10, the record's form D12 (log entry 9), its word log entry 6. -/
def Obligations.DivisionByZeroHalts : Prop :=
  ∀ (rs rt : Reg) (s : State), s.x rt = 0#32 →
    (∃ t, exec (.div rs rt) s = .next t ∧ Raised .divisionByZero (some (fetchedWord s)) none s t ∧
      t.next.hi = s.current.hi ∧ t.next.lo = s.current.lo ∧ t.next.run = false) ∧
    (∃ t, exec (.divu rs rt) s = .next t ∧ Raised .divisionByZero (some (fetchedWord s)) none s t ∧
      t.next.hi = s.current.hi ∧ t.next.lo = s.current.lo ∧ t.next.run = false)

/-- R58: a data access of `n` bytes needs an address that is a multiple of `n` (so a byte access never faults on
alignment); a misaligned one raises UnalignedAccess with the address, writes no register and no byte; an aligned one
raises nothing. That the fault halts is D11, that it comes before the region lookup D13, that the PC stays D10, the
record's form D12 (log entry 9), its word log entry 6. -/
def Obligations.MisalignedAccessFaults : Prop :=
  ∀ (i : Instr) (s : State) (ea : Word) (w : Width), i.access s = some (ea, w) →
    (ea.toNat % w.bytes ≠ 0 →
      ∃ t, exec i s = .next t ∧ Raised .unalignedAccess (some (fetchedWord s)) (some ea) s t ∧
        RegsKept s t ∧ BytesKept s t) ∧
    (ea.toNat % w.bytes = 0 →
      ∃ t, exec i s = .next t ∧ t.next.run = s.current.run ∧ t.next.fault = s.current.fault) ∧
    (w = .byte → ea.toNat % w.bytes = 0) ∧
    (w = .half → (ea.toNat % w.bytes = 0 ↔ ea.getLsbD 0 = false)) ∧
    (w = .word → (ea.toNat % w.bytes = 0 ↔ ea.getLsbD 0 = false ∧ ea.getLsbD 1 = false))

/-- Every control transfer in a delay slot raises BranchInDelaySlot and writes nothing, no link and no target (R202, a case
the source leaves open: D9; that the PC stays is D10, the record's form D12, its word log entry 6). -/
def Obligations.TransferInDelaySlotFaults : Prop :=
  ∀ (i : Instr) (s : State), i.isTransfer = true → s.current.pending.isSome = true →
    ∃ t, exec i s = .next t ∧ Raised .branchInDelaySlot (some (fetchedWord s)) none s t

/-- The codes of the fault record: 0 while nothing has faulted, 1 to 6 for the causes, never 7 (R33, R230; the numbers
are D12). -/
def Obligations.FaultCodesAreOneToSix : Prop :=
  (∀ g : Generation, g.faultCode ≠ 7#3 ∧ (g.faultCode = 0#3 ↔ g.fault = none)) ∧
  (∀ c : Cause, causeOfCode c.code = some c) ∧
  [Cause.illegalInstruction, .arithmeticOverflow, .divisionByZero, .unalignedAccess, .unmappedFetch,
    .branchInDelaySlot].map Cause.code = [1#3, 2#3, 3#3, 4#3, 5#3, 6#3]

/-- R31: the run flag allows or stops further cycles; a fault clears it, the host's `stop()` clears it, `initialize()` and
`reset()` set it; and no instruction ever sets it. -/
def Obligations.RunFlagRules : Prop :=
  (∀ s : State, s.current.run = false → step s = .next s) ∧
  (∀ s t : State, step s = .next t → t.current.fault ≠ s.current.fault → t.current.run = false) ∧
  (∀ (i : Instr) (s t : State), exec i s = .next t → t.next.run = true → s.current.run = true) ∧
  (∀ s : State, s.stop.current.run = false ∧ s.stop.next.run = false) ∧
  (∀ s : State, s.initialise.current.run = true ∧ s.hostReset.current.run = true)

/-! ### The invariant -/

/-- Every step keeps the invariant: generations agree, memory is in canonical form and lists only mapped addresses, the
cell behind `r0` is zero, a recorded fault has stopped the machine (R22, R33, R38, R56, R236). -/
def Obligations.StepKeepsInvariant : Prop :=
  ∀ (s t : State), s.Inv → step s = .next t → t.Inv

/-- The state after reset meets the invariant, and its parameters are well-formed (their values are a DESIGN CHOICE, log
entry 1). -/
def Obligations.ResetMeetsInvariant : Prop :=
  State.reset.Inv ∧ State.reset.cfg.WellFormed

/-- `initialize()` establishes the invariant from any state, and every other operation of the host keeps it (R270 to
R285). -/
def Obligations.HostOperationsKeepInvariant : Prop :=
  (∀ s : State, s.initialise.Inv ∧ s.hostReset.Inv) ∧
  (∀ s : State, s.Inv →
    (∀ words, (s.loadProgram words).Inv) ∧ s.stop.Inv ∧
    (∀ i v, (s.writeRegister i v).Inv) ∧ (∀ v, (s.writeHi v).Inv) ∧ (∀ v, (s.writeLo v).Inv) ∧
    (∀ a v t, s.writeMemoryWord a v = .next t → t.Inv) ∧
    (∀ n, (hostStep n s).2.Inv))

/-- Nothing changes `REGIONS` and `TEXT_BASE`, and only `load` changes the recorded program (R274): no step, no bounded run
and no operation of the host. -/
def Obligations.ParametersNeverChange : Prop :=
  (∀ s t : State, step s = .next t → t.cfg = s.cfg ∧ t.image = s.image) ∧
  (∀ s : State, s.initialise.cfg = s.cfg ∧ s.initialise.image = s.image ∧
    s.hostReset.cfg = s.cfg ∧ s.hostReset.image = s.image ∧
    ∀ words, (s.loadProgram words).cfg = s.cfg ∧ (s.loadProgram words).image = words) ∧
  (∀ (s u : State) (i : Reg) (a v : Word),
    u = s.stop ∨ u = s.writeRegister i v ∨ u = s.writeHi v ∨ u = s.writeLo v ∨ s.writeMemoryWord a v = .next u →
    u.cfg = s.cfg ∧ u.image = s.image) ∧
  (∀ (s : State) (n : Nat), (hostStep n s).2.cfg = s.cfg ∧ (hostStep n s).2.image = s.image)

/-! ### What each instruction does, with its frame -/

/-- addu and subu write `rd` with the sum or difference modulo 2^32 and nothing else; they never fault (R111, R117). -/
def Obligations.WrappingAddSubtract : Prop :=
  ∀ (rd rs rt : Reg) (s : State),
    (∃ t, exec (.addu rd rs rt) s = .next t ∧
      GprOnly rd (BitVec.ofNat 32 ((s.x rs).toNat + (s.x rt).toNat)) s t) ∧
    (∃ t, exec (.subu rd rs rt) s = .next t ∧
      GprOnly rd (BitVec.ofInt 32 ((s.x rs).toNat - (s.x rt).toNat)) s t)

/-- and, or, xor and nor write `rd` with the bitwise result, nor with the NOT of the OR, and nothing else (R112 to
R115). -/
def Obligations.LogicResults : Prop :=
  ∀ (rd rs rt : Reg) (s : State),
    (∃ t, exec (.and rd rs rt) s = .next t ∧ GprOnly rd (s.x rs &&& s.x rt) s t) ∧
    (∃ t, exec (.or rd rs rt) s = .next t ∧ GprOnly rd (s.x rs ||| s.x rt) s t) ∧
    (∃ t, exec (.xor rd rs rt) s = .next t ∧ GprOnly rd (s.x rs ^^^ s.x rt) s t) ∧
    (∃ t, exec (.nor rd rs rt) s = .next t ∧ GprOnly rd (~~~(s.x rs ||| s.x rt)) s t)

/-- slt and slti write 1 when the signed comparison holds and 0 otherwise, and nothing else; slti's immediate is
sign-extended (R118, R165; the extension is D30). -/
def Obligations.SetLessThan : Prop :=
  (∀ (rd rs rt : Reg) (s : State),
    ∃ t, exec (.slt rd rs rt) s = .next t ∧
      GprOnly rd (if (s.x rs).toInt < (s.x rt).toInt then 1#32 else 0#32) s t) ∧
  (∀ (rt rs : Reg) (imm : BitVec 16) (s : State),
    ∃ t, exec (.slti rt rs imm) s = .next t ∧
      GprOnly rt (if (s.x rs).toInt < imm.toInt then 1#32 else 0#32) s t)

/-- sll multiplies by 2^shamt modulo 2^32, srl divides the unsigned value and sra the signed value by 2^shamt, rounding
down; each writes `rd` and nothing else (R119 to R121). -/
def Obligations.ShiftResults : Prop :=
  ∀ (rd rt : Reg) (shamt : Nat) (s : State),
    (∃ t, exec (.sll rd rt shamt) s = .next t ∧ GprOnly rd (BitVec.ofNat 32 ((s.x rt).toNat * 2 ^ shamt)) s t) ∧
    (∃ t, exec (.srl rd rt shamt) s = .next t ∧ GprOnly rd (BitVec.ofNat 32 ((s.x rt).toNat / 2 ^ shamt)) s t) ∧
    (∃ t, exec (.sra rd rt shamt) s = .next t ∧ GprOnly rd (BitVec.ofInt 32 ((s.x rt).toInt / 2 ^ shamt)) s t)

/-- mult and multu leave `HI || LO` equal to the exact signed or unsigned 64-bit product, and write nothing else (R140,
R141, R149). -/
def Obligations.MultiplyIsExact : Prop :=
  ∀ (rs rt : Reg) (s : State),
    (∃ t, ∃ hi lo : Word, exec (.mult rs rt) s = .next t ∧ HiLoOnly hi lo s t ∧
      (hi ++ lo : BitVec 64).toInt = (s.x rs).toInt * (s.x rt).toInt) ∧
    (∃ t, ∃ hi lo : Word, exec (.multu rs rt) s = .next t ∧ HiLoOnly hi lo s t ∧
      (hi ++ lo : BitVec 64).toNat = (s.x rs).toNat * (s.x rt).toNat)

/-- div and divu with a nonzero divisor write the quotient to LO and the remainder to HI, and nothing else. The rounding
toward zero is D18, the wrapped quotient of `-2^31 / -1` is D19 (R142, R143). -/
def Obligations.DivideResults : Prop :=
  ∀ (rs rt : Reg) (s : State), s.x rt ≠ 0#32 →
    (∃ t, exec (.div rs rt) s = .next t ∧
      HiLoOnly (BitVec.ofInt 32 ((s.x rs).toInt.tmod (s.x rt).toInt))
        (BitVec.ofInt 32 ((s.x rs).toInt.tdiv (s.x rt).toInt)) s t) ∧
    (∃ t, exec (.divu rs rt) s = .next t ∧
      HiLoOnly (BitVec.ofNat 32 ((s.x rs).toNat % (s.x rt).toNat))
        (BitVec.ofNat 32 ((s.x rs).toNat / (s.x rt).toNat)) s t)

/-- After a div with a nonzero divisor, `n = q * d + r` over the integers, `|r| < |d|` and `r` has the sign of `n`, but for
`-2^31 / -1`, where LO is `0x80000000` and HI is 0; after a divu, `n = q * d + r` with `r < d` (R142, R143, R149; D18,
D19). -/
def Obligations.DivisionLaw : Prop :=
  (∀ (rs rt : Reg) (s t : State), s.x rt ≠ 0#32 → exec (.div rs rt) s = .next t →
    let n := (s.x rs).toInt
    let d := (s.x rt).toInt
    let q := t.next.lo.toInt
    let r := t.next.hi.toInt
    (n = -2 ^ 31 ∧ d = -1 → t.next.lo = 0x80000000#32 ∧ t.next.hi = 0#32) ∧
    (¬(n = -2 ^ 31 ∧ d = -1) → n = q * d + r ∧ |r| < |d| ∧ (r ≠ 0 → (0 < r ↔ 0 < n)))) ∧
  (∀ (rs rt : Reg) (s t : State), s.x rt ≠ 0#32 → exec (.divu rs rt) s = .next t →
    (s.x rs).toNat = t.next.lo.toNat * (s.x rt).toNat + t.next.hi.toNat ∧ t.next.hi.toNat < (s.x rt).toNat)

/-- mfhi and mflo write only `rd`; mthi writes only HI and mtlo only LO (R144 to R147). -/
def Obligations.HiLoMoves : Prop :=
  ∀ (r : Reg) (s : State),
    (∃ t, exec (.mfhi r) s = .next t ∧ GprOnly r s.current.hi s t) ∧
    (∃ t, exec (.mflo r) s = .next t ∧ GprOnly r s.current.lo s t) ∧
    (∃ t, exec (.mthi r) s = .next t ∧ HiLoOnly (s.x r) s.current.lo s t) ∧
    (∃ t, exec (.mtlo r) s = .next t ∧ HiLoOnly s.current.hi (s.x r) s t)

/-- addiu adds the sign-extended immediate modulo 2^32; andi, ori and xori use the zero-extended one; lui places it in
bits 31:16. Each writes `rt` and nothing else (R161 to R164, R166). -/
def Obligations.ImmediateResults : Prop :=
  ∀ (rt rs : Reg) (imm : BitVec 16) (s : State),
    (∃ t, exec (.addiu rt rs imm) s = .next t ∧ GprOnly rt (BitVec.ofInt 32 ((s.x rs).toInt + imm.toInt)) s t) ∧
    (∃ t, exec (.andi rt rs imm) s = .next t ∧ GprOnly rt (s.x rs &&& BitVec.ofNat 32 imm.toNat) s t) ∧
    (∃ t, exec (.ori rt rs imm) s = .next t ∧ GprOnly rt (s.x rs ||| BitVec.ofNat 32 imm.toNat) s t) ∧
    (∃ t, exec (.xori rt rs imm) s = .next t ∧ GprOnly rt (s.x rs ^^^ BitVec.ofNat 32 imm.toNat) s t) ∧
    (∃ t, exec (.lui rt imm) s = .next t ∧ GprOnly rt (BitVec.ofNat 32 (imm.toNat * 2 ^ 16)) s t)

/-- lb, lh and lw at an aligned effective address write `rt` with the bytes there, little-endian, bytes and halfwords
sign-extended, and write nothing else (R180, R182 to R184). -/
def Obligations.LoadResults : Prop :=
  ∀ (rt rs : Reg) (imm : BitVec 16) (s : State),
    let ea := s.x rs + imm.signExtend 32
    let b := fun k : Nat => (byteAt s.cfg s.mem (ea + BitVec.ofNat 32 k)).toNat
    (∃ t, exec (.lb rt rs imm) s = .next t ∧ GprOnly rt ((BitVec.ofNat 8 (b 0)).signExtend 32) s t) ∧
    (ea.toNat % 2 = 0 →
      ∃ t, exec (.lh rt rs imm) s = .next t ∧ GprOnly rt ((BitVec.ofNat 16 (b 0 + 2 ^ 8 * b 1)).signExtend 32) s t) ∧
    (ea.toNat % 4 = 0 →
      ∃ t, exec (.lw rt rs imm) s = .next t ∧
        GprOnly rt (BitVec.ofNat 32 (b 0 + 2 ^ 8 * b 1 + 2 ^ 16 * b 2 + 2 ^ 24 * b 3)) s t)

/-- sb, sh and sw at an aligned effective address store the low 1, 2 or 4 bytes of `rt` there, drop the unmapped bytes, and
write nothing else (R180, R185 to R187). The premise on memory is part of the invariant every step keeps. -/
def Obligations.StoreResults : Prop :=
  ∀ (rt rs : Reg) (imm : BitVec 16) (s : State), Memory.wf s.mem →
    let ea := s.x rs + imm.signExtend 32
    (∃ t, exec (.sb rt rs imm) s = .next t ∧ StoreOnly ea 1 (s.x rt) s t) ∧
    (ea.toNat % 2 = 0 → ∃ t, exec (.sh rt rs imm) s = .next t ∧ StoreOnly ea 2 (s.x rt) s t) ∧
    (ea.toNat % 4 = 0 → ∃ t, exec (.sw rt rs imm) s = .next t ∧ StoreOnly ea 4 (s.x rt) s t)

/-- Outside a delay slot, jr redirects to `x[rs]`, and jalr redirects to the old `x[rs]` and links `PC + 8` in `rd`; nothing
else is written (R204, R205; the link is D8). -/
def Obligations.RegisterJumps : Prop :=
  ∀ (rd rs : Reg) (s : State), s.current.pending = none →
    (∃ t, exec (.jr rs) s = .next t ∧ RedirectOnly (s.x rs) s t) ∧
    (∃ t, exec (.jalr rd rs) s = .next t ∧ RedirectAndLink rd (s.current.pc + 8#32) (s.x rs) s t)

/-- Outside a delay slot, beq, bne, blez and bgtz redirect to `PC + 4 + 4 * off` when their condition holds and to
`PC + 8` when it does not, and write no register (R206 to R211; not taken is D7, the signed comparison with zero
D32). -/
def Obligations.ConditionalBranches : Prop :=
  ∀ (rs rt : Reg) (off : BitVec 16) (s : State), s.current.pending = none →
    let taken := s.current.pc + BitVec.ofInt 32 (4 + 4 * off.toInt)
    let next := s.current.pc + 8#32
    (∃ t, exec (.beq rs rt off) s = .next t ∧ RedirectOnly (if s.x rs = s.x rt then taken else next) s t) ∧
    (∃ t, exec (.bne rs rt off) s = .next t ∧ RedirectOnly (if s.x rs = s.x rt then next else taken) s t) ∧
    (∃ t, exec (.blez rs off) s = .next t ∧ RedirectOnly (if (s.x rs).toInt ≤ 0 then taken else next) s t) ∧
    (∃ t, exec (.bgtz rs off) s = .next t ∧ RedirectOnly (if 0 < (s.x rs).toInt then taken else next) s t)

/-- Outside a delay slot, j and jal redirect to `target26 * 4` in the 256 MiB block of `PC + 4`, and jal links `PC + 8` in
`r31`; nothing else is written (R87, R212, R213). -/
def Obligations.AbsoluteJumps : Prop :=
  ∀ (target : BitVec 26) (s : State), s.current.pending = none →
    let t' := BitVec.ofNat 32 ((s.current.pc + 4#32).toNat / 2 ^ 28 * 2 ^ 28 + target.toNat * 4)
    (∃ t, exec (.j target) s = .next t ∧ RedirectOnly t' s t) ∧
    (∃ t, exec (.jal target) s = .next t ∧ RedirectAndLink 31 (s.current.pc + 8#32) t' s t)

/-! ### What no instruction does -/

/-- No instruction changes a general register other than the one R23 names for it, and none changes `r0`, which reads as
zero in every state (R22, R23; D17). -/
def Obligations.OnlyDestinationRegisterChanges : Prop :=
  (∀ (i : Instr) (s t : State) (r : Reg), exec i s = .next t → i.dest ≠ some r → t.next.x r = s.current.x r) ∧
  (∀ (i : Instr) (s t : State), exec i s = .next t → i.dest = some 0 → RegsKept s t) ∧
  (∀ (g : Generation) (v : Word), g.x 0 = 0#32 ∧ g.setX 0 v = g)

/-- No instruction but sb, sh and sw changes memory, and those change no byte outside the access (R188; R56). -/
def Obligations.OnlyStoresWriteMemory : Prop :=
  (∀ (i : Instr) (s t : State), exec i s = .next t → i.isStore = false → t.mem = s.mem) ∧
  (∀ (i : Instr) (s t : State) (ea : Word) (w : Width) (a : Word), Memory.wf s.mem → exec i s = .next t →
    i.access s = some (ea, w) → ¬ InAccess ea w.bytes a → byteAt t.cfg t.mem a = byteAt s.cfg s.mem a)

/-- HI is written only by mult, multu, div, divu and mthi, LO only by mult, multu, div, divu and mtlo; and no instruction
but mfhi and mflo reads them: with HI and LO replaced, every other instruction leaves the same registers, PC, pending
target, run flag, fault record and memory (R27). -/
def Obligations.HiLoAreReadAndWrittenOnlyByTheirInstructions : Prop :=
  (∀ (i : Instr) (s t : State), exec i s = .next t →
    (i.writesHi = false → t.next.hi = s.current.hi) ∧ (i.writesLo = false → t.next.lo = s.current.lo)) ∧
  (∀ (i : Instr) (s t u : State) (hi lo : Word), (∀ rd, i ≠ .mfhi rd ∧ i ≠ .mflo rd) →
    exec i s = .next t → exec i { s with current := { s.current with hi := hi, lo := lo } } = .next u →
    (∀ r, u.next.x r = t.next.x r) ∧ u.next.pc = t.next.pc ∧ u.next.pending = t.next.pending ∧
    u.next.run = t.next.run ∧ u.next.fault = t.next.fault ∧ u.mem = t.mem ∧
    (i.writesHi = true → t.next.run = true → u.next.hi = t.next.hi) ∧
    (i.writesLo = true → t.next.run = true → u.next.lo = t.next.lo))

/-! ### Memory -/

/-- R54: the byte at the lowest address is the least significant, for data and for the fetch. -/
def Obligations.LittleEndian : Prop :=
  (∀ (c : Config) (m : Memory) (a v : Word), Memory.wf m → a.toNat % 4 = 0 →
    (∀ k < 4, mapped c (a + BitVec.ofNat 32 k) = true) →
    ∀ k < 4, byteAt c (memWrite c m a 4 v) (a + BitVec.ofNat 32 k) = BitVec.ofNat 8 (v.toNat / 2 ^ (8 * k))) ∧
  (∀ (c : Config) (m : Memory) (a : Word), Memory.wf m → a.toNat % 4 = 0 →
    (∀ k < 4, mapped c (a + BitVec.ofNat 32 k) = true) →
    (List.range 4).map (fun k => byteAt c (memWrite c m a 4 0x12345678#32) (a + BitVec.ofNat 32 k)) =
      [0x78#8, 0x56#8, 0x34#8, 0x12#8]) ∧
  (∀ (s : State) (w : Word), fetch s = .ok w →
    ∀ k < 4, byteAt s.cfg s.mem (s.current.pc + BitVec.ofNat 32 k) = BitVec.ofNat 8 (w.toNat / 2 ^ (8 * k)))

/-- R55: `MemRead(addr, n)` is the sum of its bytes shifted by their place, addresses modulo 2^32, where a byte is the
region byte at a mapped address and 0 at an unmapped one. -/
def Obligations.MemReadFormula : Prop :=
  ∀ (c : Config) (m : Memory) (a : Word),
    let b := fun k : Nat => (byteAt c m (a + BitVec.ofNat 32 k)).toNat
    (memRead8 c m a).toNat = b 0 ∧
    (memRead16 c m a).toNat = b 0 + b 1 * 2 ^ 8 ∧
    (memRead32 c m a).toNat = b 0 + b 1 * 2 ^ 8 + b 2 * 2 ^ 16 + b 3 * 2 ^ 24 ∧
    (mapped c a = true → byteAt c m a = Memory.read m a.toNat) ∧
    (mapped c a = false → byteAt c m a = 0#8)

/-- R56: `MemWrite(addr, n, v)` writes byte `i` of `v` at `addr + i` for each `i < n` whose address is mapped; an unmapped
byte is not written (memory, as data, keeps only mapped addresses), and no other byte changes. -/
def Obligations.MemWriteLaw : Prop :=
  ∀ (c : Config) (m : Memory) (a v : Word) (n : Nat), n ∈ [1, 2, 4] → Memory.wf m →
    (∀ k < n, mapped c (a + BitVec.ofNat 32 k) = true →
      byteAt c (memWrite c m a n v) (a + BitVec.ofNat 32 k) = BitVec.ofNat 8 (v.toNat / 2 ^ (8 * k))) ∧
    ((∀ k < n, mapped c (a + BitVec.ofNat 32 k) = false) → memWrite c m a n v = m) ∧
    (∀ d : Word, (∀ k < n, d ≠ a + BitVec.ofNat 32 k) → byteAt c (memWrite c m a n v) d = byteAt c m d) ∧
    (∀ d : Word, mapped c d = false → Memory.read (memWrite c m a n v) d.toNat = Memory.read m d.toNat)

/-- R57: an aligned data load from unmapped addresses gives zero and an aligned store to them changes no memory, neither
raising anything; a fetch of an unmapped address faults. -/
def Obligations.UnmappedDataIsNoError : Prop :=
  (∀ (i : Instr) (s : State) (ea : Word) (w : Width), i.access s = some (ea, w) → ea.toNat % w.bytes = 0 →
    (∀ k < w.bytes, mapped s.cfg (ea + BitVec.ofNat 32 k) = false) →
    ∃ t, exec i s = .next t ∧ t.next.run = s.current.run ∧ t.next.fault = s.current.fault ∧ t.mem = s.mem ∧
      (∀ rt, i.dest = some rt → rt ≠ 0 → t.next.x rt = 0#32)) ∧
  (∀ s : State, s.current.run = true → s.current.pc.toNat % 4 = 0 → mapped s.cfg s.current.pc = false →
    ∃ t, step s = .next t ∧ t.current.run = false ∧ t.current.faultCode = Cause.unmappedFetch.code)

/-- A host word write to a mapped aligned address reads back, word and low byte; a misaligned host word access is refused,
changing nothing (R285, R286; the refusal is D22). -/
def Obligations.HostWordRoundTrip : Prop :=
  (∀ (s : State) (a v : Word), Memory.wf s.mem → a.toNat % 4 = 0 →
    (∀ k < 4, mapped s.cfg (a + BitVec.ofNat 32 k) = true) →
    ∃ t, s.writeMemoryWord a v = .next t ∧ t.readMemoryWord a = .ok v ∧
      t.readMemoryByte a = BitVec.ofNat 8 v.toNat ∧ t.current = s.current ∧ t.next = s.next) ∧
  (∀ (s : State) (a v : Word), a.toNat % 4 ≠ 0 →
    s.writeMemoryWord a v = .refused (.hostMisaligned a) ∧ s.readMemoryWord a = .error (.hostMisaligned a))

/-- R303: a store is seen by the fetch of the next cycle: after the cycle of a sb, sh or sw, the word the next cycle
fetches holds the stored bytes where it overlaps the access, and the old bytes elsewhere; no instruction stands in
between. -/
def Obligations.StoreIsFetched : Prop :=
  ∀ (s t : State) (rt rs : Reg) (imm : BitVec 16) (i : Instr) (n : Nat) (w v : Word), Memory.wf s.mem →
    s.current.run = true → fetch s = .ok w → decodeInstr w = .ok i →
    (i = .sb rt rs imm ∧ n = 1 ∨ i = .sh rt rs imm ∧ n = 2 ∨ i = .sw rt rs imm ∧ n = 4) →
    let ea := s.x rs + imm.signExtend 32
    ea.toNat % n = 0 → step s = .next t → fetch t = .ok v →
    ∀ k < 4, let a := t.current.pc + BitVec.ofNat 32 k
      BitVec.ofNat 8 (v.toNat / 2 ^ (8 * k)) =
        if (a - ea).toNat < n then BitVec.ofNat 8 ((s.x rt).toNat / 2 ^ (8 * (a - ea).toNat)) else byteAt s.cfg s.mem a

/-- Memory as data is canonical: two memories in canonical form that read alike at every address are equal, and every write
keeps the form (the model's own representation of R34, R35). -/
def Obligations.CanonicalMemoryIsUnique : Prop :=
  (∀ m n : Memory, Memory.wf m → Memory.wf n → (∀ a, Memory.read m a = Memory.read n a) → m = n) ∧
  (∀ (m : Memory) (a : Nat) (b c : Byte), Memory.wf m →
    Memory.wf (Memory.write m a b) ∧ Memory.write (Memory.write m a b) a c = Memory.write m a c ∧
      Memory.write m a (Memory.read m a) = m)

/-! ### Reset and the host -/

/-- After `initialize()`, in any configuration: every register and memory byte is zero, the PC is the text base, no target
is pending, `IC` is 0, nothing has faulted and the machine is RUNNING (R35, R270; the pending target and the fault record
are D24). -/
def Obligations.InitialState : Prop :=
  ∀ s : State, s.initialise.next = s.initialise.current ∧
    (∀ r, s.initialise.current.x r = 0#32) ∧ s.initialise.current.hi = 0#32 ∧ s.initialise.current.lo = 0#32 ∧
    s.initialise.current.pc = s.cfg.textBase ∧ s.initialise.current.pending = none ∧ s.initialise.current.ic = 0 ∧
    s.initialise.current.run = true ∧ s.initialise.current.fault = none ∧
    (∀ a, s.initialise.readMemoryByte a = 0#8)

/-- R272: `reset()` after any run of a loaded program is `initialize()` followed by loading that program again: `IC` is 0,
every byte the program wrote is lost (a byte outside the program reads 0), and the program's words are restored (where they
are mapped, if the list does not wrap around the address space); with no earlier load it is only `initialize()`. -/
def Obligations.HostResetRestoresProgram : Prop :=
  (∀ (s : State) (words : List Word) (n : Nat),
    let u := (hostStep n (s.loadProgram words)).2.hostReset
    u = s.initialise.loadProgram words ∧
    (4 * words.length ≤ 2 ^ 32 →
      (∀ (j : Nat) (hj : j < words.length), ∀ k < 4,
        let a := s.cfg.textBase + BitVec.ofNat 32 (4 * j + k)
        mapped s.cfg a = true → u.readMemoryByte a = BitVec.ofNat 8 (words[j].toNat / 2 ^ (8 * k))) ∧
      (∀ a : Word, 4 * words.length ≤ (a - s.cfg.textBase).toNat → u.readMemoryByte a = 0#8))) ∧
  (∀ s : State, s.hostReset = s.initialise.loadProgram s.image ∧ s.hostReset.current.ic = 0) ∧
  (∀ s : State, s.image = [] → s.hostReset = s.initialise)

/-- R284: a host register write reaches both generations at once, so the next commit does not overwrite it unless the
instruction writes that register; `write_register(0, v)` changes nothing; a written register reads back; and each touches
nothing else: no other register, not the PC, the pending target, `IC`, the run flag, the fault record, memory, the recorded
program or the parameters. -/
def Obligations.HostRegisterWrites : Prop :=
  (∀ (s : State) (i : Reg) (v : Word), i ≠ 0 →
    (s.writeRegister i v).readRegister i = v ∧ (s.writeRegister i v).next.x i = v) ∧
  (∀ (s : State) (v : Word), s.writeRegister 0 v = s) ∧
  (∀ (s t : State) (i : Reg) (v : Word) (k : Instr), i ≠ 0 → exec k (s.writeRegister i v) = .next t →
    k.dest ≠ some i → (commit t).readRegister i = v) ∧
  (∀ (s : State) (v : Word), (s.writeHi v).readHi = v ∧ (s.writeHi v).next.hi = v ∧
    (s.writeLo v).readLo = v ∧ (s.writeLo v).next.lo = v) ∧
  (∀ (s : State) (i : Reg) (v : Word), let u := s.writeRegister i v
    OnlyRegistersWritten s u ∧ (∀ r, r ≠ i → u.current.x r = s.current.x r ∧ u.next.x r = s.next.x r) ∧
    u.current.hi = s.current.hi ∧ u.next.hi = s.next.hi ∧ u.current.lo = s.current.lo ∧ u.next.lo = s.next.lo) ∧
  (∀ (s : State) (v : Word), let u := s.writeHi v
    OnlyRegistersWritten s u ∧ (∀ r, u.current.x r = s.current.x r ∧ u.next.x r = s.next.x r) ∧
    u.current.lo = s.current.lo ∧ u.next.lo = s.next.lo) ∧
  (∀ (s : State) (v : Word), let u := s.writeLo v
    OnlyRegistersWritten s u ∧ (∀ r, u.current.x r = s.current.x r ∧ u.next.x r = s.next.x r) ∧
    u.current.hi = s.current.hi ∧ u.next.hi = s.next.hi)

/-- `step(n)` executes at most `n` cycles, counts each in `IC`, stops early only when the run flag clears, and may be
continued: `step(m)` then `step(n)` is `step(m + n)` (R280; that exhaustion leaves the flag set is D23). -/
def Obligations.BoundedRunCounts : Prop :=
  (∀ (n : Nat) (s : State), (hostStep n s).1 ≤ n ∧
    (hostStep n s).2.current.ic = s.current.ic + (hostStep n s).1 ∧
    ((hostStep n s).1 < n → (hostStep n s).2.current.run = false)) ∧
  (∀ (m n : Nat) (s : State), hostStep (m + n) s =
    ((hostStep m s).1 + (hostStep n (hostStep m s).2).1, (hostStep n (hostStep m s).2).2))

/-- The end of a run is one state: `run_to_completion()` has at most one result, and no further cycle changes it (R281,
R288). -/
def Obligations.RunEndsInOneState : Prop :=
  ∀ s t u : State, RunsToCompletion s t → RunsToCompletion s u → t = u ∧ ∀ n, hostStep n t = (0, t)

/-! ### The block as hardware -/

/-- The block put together from its four parts by the signals of R291 to R295 does exactly what the cycle of R40 and R41
does, in every state. The decomposition is the spec's own (D25); the two inputs the signal list lacks are log entry 10. -/
def Obligations.BlockViewEqualsCycle : Prop :=
  ∀ s : State, step s = .next (blockCycle s)

/-! ### The program load -/

/-- `load(words)` puts byte `k` of word `j` at `TEXT_BASE + 4 * j + k` where that is mapped, if the list does not wrap around
the address space, and so word `j` reads back; every byte outside the list and every unmapped cell is kept; the words and
their count are recorded; and both generations, the PC and the run flag among them, stay as they were (R271, C8; that
unmapped bytes are dropped is D21, log entry 9). -/
def Obligations.LoadWritesProgram : Prop :=
  (∀ (s : State) (words : List Word), Memory.wf s.mem → 4 * words.length ≤ 2 ^ 32 →
    let t := s.loadProgram words
    (∀ (j : Nat) (hj : j < words.length), ∀ k < 4,
      let a := s.cfg.textBase + BitVec.ofNat 32 (4 * j + k)
      mapped s.cfg a = true → t.readMemoryByte a = BitVec.ofNat 8 (words[j].toNat / 2 ^ (8 * k))) ∧
    (∀ (j : Nat) (hj : j < words.length),
      let a := s.cfg.textBase + BitVec.ofNat 32 (4 * j)
      a.toNat % 4 = 0 → (∀ k < 4, mapped s.cfg (a + BitVec.ofNat 32 k) = true) → t.readMemoryWord a = .ok words[j]) ∧
    (∀ a : Word, 4 * words.length ≤ (a - s.cfg.textBase).toNat → t.readMemoryByte a = s.readMemoryByte a) ∧
    (∀ a : Word, mapped s.cfg a = false → Memory.read t.mem a.toNat = Memory.read s.mem a.toNat)) ∧
  (∀ (s : State) (words : List Word), let t := s.loadProgram words
    t.image = words ∧ t.programSize = words.length ∧ t.current = s.current ∧ t.next = s.next ∧ t.cfg = s.cfg)
end

