-- ==== Sys2Proof/Laws/Arith.lean ====
section
/-! SUPPORT. What the operand forms, the overflow tests and the byte order compute, as integers and natural numbers. -/

namespace Sys2Proof

/-! ### Byte order (R54, R55) -/

theorem byteOf_eq (v : Word) (k : Nat) : byteOf v k = BitVec.ofNat 8 (v.toNat / 2 ^ (8 * k)) := by
  apply BitVec.eq_of_toNat_eq
  simp [byteOf, Nat.shiftRight_eq_div_pow]

theorem leHalf_toNat (a b : Byte) : (leHalf a b).toNat = a.toNat + 2 ^ 8 * b.toNat := by
  unfold leHalf
  rw [BitVec.toNat_append, ← Nat.shiftLeft_add_eq_or_of_lt a.isLt, Nat.shiftLeft_eq]
  omega

theorem leWord_toNat (a b c d : Byte) :
    (leWord a b c d).toNat = a.toNat + 2 ^ 8 * b.toNat + 2 ^ 16 * c.toNat + 2 ^ 24 * d.toNat := by
  unfold leWord
  simp only [BitVec.toNat_append]
  rw [← Nat.shiftLeft_add_eq_or_of_lt b.isLt, ← Nat.shiftLeft_add_eq_or_of_lt a.isLt,
    ← Nat.shiftLeft_add_eq_or_of_lt c.isLt]
  simp only [Nat.shiftLeft_eq]
  omega

/-- A word is put together from its bytes. -/
theorem leWord_byteOf (w : Word) : leWord (byteOf w 0) (byteOf w 1) (byteOf w 2) (byteOf w 3) = w := by
  unfold leWord byteOf
  apply BitVec.eq_of_getLsbD_eq
  intro i hi
  simp only [BitVec.getLsbD_append, BitVec.getLsbD_extractLsb']
  interval_cases i <;> simp

end Sys2Proof

namespace Sys2Proof.Machine

/-! ### Operands -/

theorem sext32_toInt (imm : BitVec 16) : (sext32 imm).toInt = imm.toInt :=
  BitVec.toInt_signExtend_of_le (by decide)

theorem zext32_eq (imm : BitVec 16) : zext32 imm = BitVec.ofNat 32 imm.toNat := by
  apply BitVec.eq_of_toNat_eq
  simp [zext32]

theorem upperImm_eq (imm : BitVec 16) : upperImm imm = BitVec.ofNat 32 (imm.toNat * 2 ^ 16) := by
  apply BitVec.eq_of_toNat_eq
  unfold upperImm
  rw [BitVec.toNat_append]
  have := imm.isLt
  simp [Nat.shiftLeft_eq]
  omega

theorem branchTarget_eq (pc : Word) (off : BitVec 16) :
    branchTarget pc off = pc + BitVec.ofInt 32 (4 + 4 * off.toInt) := by
  unfold branchTarget
  rw [BitVec.add_assoc]
  congr 1
  rw [BitVec.ofInt_add]
  congr 1
  rw [BitVec.ofInt_mul, ← sext32_toInt, BitVec.ofInt_toInt, BitVec.shiftLeft_eq_mul_twoPow, BitVec.mul_comm]
  rfl

theorem jumpTarget_eq (pc : Word) (target : BitVec 26) :
    jumpTarget pc target = BitVec.ofNat 32 ((pc + 4#32).toNat / 2 ^ 28 * 2 ^ 28 + target.toNat * 4) := by
  unfold jumpTarget
  generalize pc + 4#32 = a
  apply BitVec.eq_of_toNat_eq
  rw [BitVec.toNat_append, BitVec.toNat_append, ← Nat.shiftLeft_add_eq_or_of_lt target.isLt]
  have := a.isLt
  have := target.isLt
  simp [Nat.shiftLeft_eq, Nat.shiftRight_eq_div_pow]
  omega

/-- `aligned` is divisibility by the width (R58). -/
theorem aligned_iff (w : Width) (a : Word) : w.aligned a = true ↔ a.toNat % w.bytes = 0 := by
  cases w
  · simp [Width.aligned, Width.bytes, Nat.mod_one]
  · simp only [Width.aligned, Width.bytes, beq_iff_eq, ← BitVec.toNat_inj, BitVec.extractLsb'_toNat]
    simp
  · simp only [Width.aligned, Width.bytes, beq_iff_eq, ← BitVec.toNat_inj, BitVec.extractLsb'_toNat]
    simp

theorem aligned_false_iff (w : Width) (a : Word) : w.aligned a = false ↔ a.toNat % w.bytes ≠ 0 := by
  have := aligned_iff w a
  cases h : w.aligned a <;> simp_all

/-! ### Overflow (R110, R116) -/

theorem addOverflows_iff (a b : Word) :
    addOverflows a b = true ↔ ¬(-2 ^ 31 ≤ a.toInt + b.toInt ∧ a.toInt + b.toInt < 2 ^ 31) := by
  have h : addOverflows a b = a.saddOverflow b := by
    rw [BitVec.saddOverflow_eq]
    unfold addOverflows
    simp [bne, Bool.beq_comm]
  rw [h]
  unfold BitVec.saddOverflow
  simp
  omega

theorem subOverflows_iff (a b : Word) :
    subOverflows a b = true ↔ ¬(-2 ^ 31 ≤ a.toInt - b.toInt ∧ a.toInt - b.toInt < 2 ^ 31) := by
  have h : subOverflows a b = a.ssubOverflow b := by
    rw [BitVec.ssubOverflow_eq]
    unfold subOverflows
    cases a.msb <;> cases b.msb <;> cases (a - b).msb <;> rfl
  rw [h]
  unfold BitVec.ssubOverflow
  simp
  omega

theorem add_eq_ofInt (a b : Word) : a + b = BitVec.ofInt 32 (a.toInt + b.toInt) := by
  simp [BitVec.ofInt_add]

theorem sub_eq_ofInt (a b : Word) : a - b = BitVec.ofInt 32 (a.toInt - b.toInt) := by
  apply BitVec.eq_of_toInt_eq
  simp [BitVec.toInt_sub]

/-! ### Products and remainders (R140, R142) -/

/-- A 64-bit vector is its high half before its low half. -/
theorem append_halves (p : BitVec 64) : (p.extractLsb' 32 32 ++ p.extractLsb' 0 32 : BitVec 64) = p := by
  ext i hi
  simp only [BitVec.getElem_append, BitVec.getElem_extractLsb']
  split <;> simp_all

theorem signedRemainder_eq (a b : Word) : signedRemainder a b = BitVec.ofInt 32 (a.toInt.tmod b.toInt) := by
  unfold signedRemainder
  rw [Int.tmod_def, mul_comm]

end Sys2Proof.Machine
end

