-- ==== Sys2Proof/Laws/Decode.lean ====
section
/-! SUPPORT. The fields of an encoded word, a word put together from its fields, and the maps between tags and their
opcode or funct, each said once. -/

namespace Sys2Proof

@[simp] theorem regOf_regBits (r : Reg) : regOf (regBits r) = r := rfl
@[simp] theorem regBits_regOf (b : BitVec 5) : regBits (regOf b) = b := rfl
theorem regBits_zero : regBits 0 = 0#5 := rfl

/-! ### The fields of an encoded word (R81, R96) -/

section EncodeR
variable (rs rt rd : Reg) (sh : BitVec 5) (f : BitVec 6)

@[simp] theorem opcodeOf_encodeR : opcodeOf (encodeR rs rt rd sh f) = 0#6 := by
  unfold opcodeOf encodeR
  ext i hi
  simp only [BitVec.getElem_extractLsb', BitVec.getLsbD_append]
  interval_cases i <;> simp

@[simp] theorem rsOf_encodeR : rsOf (encodeR rs rt rd sh f) = rs := by
  have h : (encodeR rs rt rd sh f).extractLsb' 21 5 = regBits rs := by
    unfold encodeR
    ext i hi
    simp only [BitVec.getElem_extractLsb', BitVec.getLsbD_append]
    interval_cases i <;> simp
  simp only [rsOf, h, regOf_regBits]

@[simp] theorem rtOf_encodeR : rtOf (encodeR rs rt rd sh f) = rt := by
  have h : (encodeR rs rt rd sh f).extractLsb' 16 5 = regBits rt := by
    unfold encodeR
    ext i hi
    simp only [BitVec.getElem_extractLsb', BitVec.getLsbD_append]
    interval_cases i <;> simp
  simp only [rtOf, h, regOf_regBits]

@[simp] theorem rdOf_encodeR : rdOf (encodeR rs rt rd sh f) = rd := by
  have h : (encodeR rs rt rd sh f).extractLsb' 11 5 = regBits rd := by
    unfold encodeR
    ext i hi
    simp only [BitVec.getElem_extractLsb', BitVec.getLsbD_append]
    interval_cases i <;> simp
  simp only [rdOf, h, regOf_regBits]

@[simp] theorem shamtOf_encodeR : shamtOf (encodeR rs rt rd sh f) = sh := by
  unfold shamtOf encodeR
  ext i hi
  simp only [BitVec.getElem_extractLsb', BitVec.getLsbD_append]
  interval_cases i <;> simp

@[simp] theorem functOf_encodeR : functOf (encodeR rs rt rd sh f) = f := by
  unfold functOf encodeR
  ext i hi
  simp only [BitVec.getElem_extractLsb', BitVec.getLsbD_append]
  interval_cases i <;> simp

end EncodeR

section EncodeI
variable (op : BitVec 6) (rs rt : Reg) (imm : BitVec 16)

@[simp] theorem opcodeOf_encodeI : opcodeOf (encodeI op rs rt imm) = op := by
  unfold opcodeOf encodeI
  ext i hi
  simp only [BitVec.getElem_extractLsb', BitVec.getLsbD_append]
  interval_cases i <;> simp

@[simp] theorem rsOf_encodeI : rsOf (encodeI op rs rt imm) = rs := by
  have h : (encodeI op rs rt imm).extractLsb' 21 5 = regBits rs := by
    unfold encodeI
    ext i hi
    simp only [BitVec.getElem_extractLsb', BitVec.getLsbD_append]
    interval_cases i <;> simp
  simp only [rsOf, h, regOf_regBits]

@[simp] theorem rtOf_encodeI : rtOf (encodeI op rs rt imm) = rt := by
  have h : (encodeI op rs rt imm).extractLsb' 16 5 = regBits rt := by
    unfold encodeI
    ext i hi
    simp only [BitVec.getElem_extractLsb', BitVec.getLsbD_append]
    interval_cases i <;> simp
  simp only [rtOf, h, regOf_regBits]

@[simp] theorem imm16Of_encodeI : imm16Of (encodeI op rs rt imm) = imm := by
  unfold imm16Of encodeI
  ext i hi
  simp only [BitVec.getElem_extractLsb', BitVec.getLsbD_append]
  interval_cases i <;> simp

end EncodeI

section EncodeJ
variable (op : BitVec 6) (target : BitVec 26)

@[simp] theorem opcodeOf_encodeJ : opcodeOf (encodeJ op target) = op := by
  unfold opcodeOf encodeJ
  ext i hi
  simp only [BitVec.getElem_extractLsb', BitVec.getLsbD_append]
  interval_cases i <;> simp

@[simp] theorem target26Of_encodeJ : target26Of (encodeJ op target) = target := by
  unfold target26Of encodeJ
  ext i hi
  simp only [BitVec.getElem_extractLsb', BitVec.getLsbD_append]
  interval_cases i <;> simp

end EncodeJ

/-! ### A word is put together from its fields (R81) -/

theorem encodeI_fields (w : Word) : encodeI (opcodeOf w) (rsOf w) (rtOf w) (imm16Of w) = w := by
  unfold encodeI opcodeOf rsOf rtOf imm16Of
  simp only [regBits_regOf]
  ext i hi
  simp only [BitVec.getElem_append, BitVec.getElem_extractLsb']
  interval_cases i <;> simp

theorem encodeJ_fields (w : Word) : encodeJ (opcodeOf w) (target26Of w) = w := by
  unfold encodeJ opcodeOf target26Of
  ext i hi
  simp only [BitVec.getElem_append, BitVec.getElem_extractLsb']
  interval_cases i <;> simp

theorem encodeR_fields {w : Word} (h : opcodeOf w = 0#6) :
    encodeR (rsOf w) (rtOf w) (rdOf w) (shamtOf w) (functOf w) = w := by
  unfold encodeR
  rw [← h]
  unfold opcodeOf rsOf rtOf rdOf shamtOf functOf
  simp only [regBits_regOf]
  ext i hi
  simp only [BitVec.getElem_append, BitVec.getElem_extractLsb']
  interval_cases i <;> simp

/-! ### Masking ignored fields (R92) -/

/-- A mask given by one all-ones or all-zeros value per R-format field keeps or clears each field. -/
theorem and_encodeR (rs rt rd rs' rt' rd' : Reg) (sh sh' : BitVec 5) (f f' : BitVec 6) :
    encodeR rs rt rd sh f &&& (63#6 ++ regBits rs' ++ regBits rt' ++ regBits rd' ++ sh' ++ f') =
      encodeR (regOf (regBits rs &&& regBits rs')) (regOf (regBits rt &&& regBits rt'))
        (regOf (regBits rd &&& regBits rd')) (sh &&& sh') (f &&& f') := by
  unfold encodeR
  simp only [regBits_regOf]
  apply BitVec.eq_of_getLsbD_eq
  intro i hi
  simp only [BitVec.getLsbD_and, BitVec.getLsbD_append]
  interval_cases i <;> simp

theorem and_encodeI (op op' : BitVec 6) (rs rt rs' rt' : Reg) (imm imm' : BitVec 16) :
    encodeI op rs rt imm &&& encodeI op' rs' rt' imm' =
      encodeI (op &&& op') (regOf (regBits rs &&& regBits rs')) (regOf (regBits rt &&& regBits rt')) (imm &&& imm') := by
  unfold encodeI
  simp only [regBits_regOf]
  apply BitVec.eq_of_getLsbD_eq
  intro i hi
  simp only [BitVec.getLsbD_and, BitVec.getLsbD_append]
  interval_cases i <;> simp

/-! ### The maps (R88 to R91) -/

theorem functTag_funct (t : RTag) : functTag t.funct = some t := by cases t <;> rfl
theorem opcodeITag_opcode (t : ITag) : opcodeITag t.opcode = some t := by cases t <;> rfl
theorem opcodeJTag_opcode (t : JTag) : opcodeJTag t.opcode = some t := by cases t <;> rfl

/-- No funct is mapped to two tags (R88). -/
theorem funct_of_functTag {f : BitVec 6} {t : RTag} (h : functTag f = some t) : f = t.funct := by
  revert t; revert f; decide

theorem opcode_of_opcodeITag {op : BitVec 6} {t : ITag} (h : opcodeITag op = some t) : op = t.opcode := by
  revert t; revert op; decide

theorem opcode_of_opcodeJTag {op : BitVec 6} {t : JTag} (h : opcodeJTag op = some t) : op = t.opcode := by
  revert t; revert op; decide

theorem formatOf_iOpcode (t : ITag) : formatOf t.opcode = .i := by cases t <;> rfl
theorem formatOf_jOpcode (t : JTag) : formatOf t.opcode = .j := by cases t <;> rfl

/-! ### Decoding an encoded word (R82, R96) -/

theorem decodeWord_encodeR (rs rt rd : Reg) (sh : BitVec 5) (f : BitVec 6) :
    decodeWord (encodeR rs rt rd sh f) = .r { rs := rs, rt := rt, rd := rd, shamt := sh, funct := f } := by
  simp [decodeWord, formatOf]

theorem decodeWord_encodeI {op : BitVec 6} (h : formatOf op = .i) (rs rt : Reg) (imm : BitVec 16) :
    decodeWord (encodeI op rs rt imm) = .i { opcode := op, rs := rs, rt := rt, imm := imm } := by
  simp [decodeWord, h]

theorem decodeWord_encodeJ {op : BitVec 6} (h : formatOf op = .j) (target : BitVec 26) :
    decodeWord (encodeJ op target) = .j { opcode := op, target := target } := by
  simp [decodeWord, h]

theorem decodeInstr_of_instr {w : Word} {i : Instr} (h : (decodeWord w).instr = some i) : decodeInstr w = .ok i := by
  simp [decodeInstr, h]

/-- `decodeInstr` answers an instruction exactly when the decoded word denotes it. -/
theorem decodeInstr_eq_ok {w : Word} {i : Instr} : decodeInstr w = .ok i ↔ (decodeWord w).instr = some i := by
  unfold decodeInstr
  cases h : (decodeWord w).instr <;> simp

end Sys2Proof
end

