-- ==== Sys2Proof/Laws/State.lean ====
section
/-! SUPPORT. One lemma per field per update of the state: the register accessors, the phases of the commit and the taking
of a fault, so that no later proof unfolds a record update. -/

namespace Sys2Proof.Machine

/-! ### Register accessors (R22) -/

@[simp] theorem Generation.x_zero (g : Generation) : g.x 0 = 0#32 := rfl

theorem Generation.x_setX (g : Generation) (d r : Reg) (v : Word) :
    (g.setX d v).x r = if r = d ∧ r ≠ 0 then v else g.x r := by
  unfold Generation.x Generation.setX
  by_cases hd : d = 0
  · subst hd
    by_cases hr : r = 0 <;> simp [hr]
  · by_cases hr : r = 0
    · simp [hr]
    · by_cases h : r = d
      · subst h; simp [hd]
      · have : d.val ≠ r.val := fun e => h (Fin.ext e.symm)
        simp [hd, hr, h, Vector.getElem_set_ne _ _ this]

@[simp] theorem Generation.setX_zero (g : Generation) (v : Word) : g.setX 0 v = g := rfl
@[simp] theorem Generation.setX_hi (g : Generation) (d : Reg) (v : Word) : (g.setX d v).hi = g.hi := by
  unfold Generation.setX; split <;> rfl
@[simp] theorem Generation.setX_lo (g : Generation) (d : Reg) (v : Word) : (g.setX d v).lo = g.lo := by
  unfold Generation.setX; split <;> rfl
@[simp] theorem Generation.setX_pc (g : Generation) (d : Reg) (v : Word) : (g.setX d v).pc = g.pc := by
  unfold Generation.setX; split <;> rfl
@[simp] theorem Generation.setX_pending (g : Generation) (d : Reg) (v : Word) :
    (g.setX d v).pending = g.pending := by
  unfold Generation.setX; split <;> rfl
@[simp] theorem Generation.setX_ic (g : Generation) (d : Reg) (v : Word) : (g.setX d v).ic = g.ic := by
  unfold Generation.setX; split <;> rfl
@[simp] theorem Generation.setX_run (g : Generation) (d : Reg) (v : Word) : (g.setX d v).run = g.run := by
  unfold Generation.setX; split <;> rfl
@[simp] theorem Generation.setX_fault (g : Generation) (d : Reg) (v : Word) : (g.setX d v).fault = g.fault := by
  unfold Generation.setX; split <;> rfl

/-- The cell behind `r0` is never written. -/
@[simp] theorem Generation.setX_zeroCell (g : Generation) (d : Reg) (v : Word) :
    (g.setX d v).gpr[0] = g.gpr[0] := by
  unfold Generation.setX
  split
  · rfl
  · next h =>
      have : d.val ≠ 0 := fun e => h (Fin.ext e)
      exact Vector.getElem_set_ne d.isLt (by decide) this

/-! ### openCycle, writeGpr, writeRegs (R40, R294) -/

@[simp] theorem openCycle_gpr (g : Generation) : (openCycle g).gpr = g.gpr := rfl
@[simp] theorem openCycle_hi (g : Generation) : (openCycle g).hi = g.hi := rfl
@[simp] theorem openCycle_lo (g : Generation) : (openCycle g).lo = g.lo := rfl
@[simp] theorem openCycle_ic (g : Generation) : (openCycle g).ic = g.ic + 1 := rfl
@[simp] theorem openCycle_run (g : Generation) : (openCycle g).run = g.run := rfl
@[simp] theorem openCycle_fault (g : Generation) : (openCycle g).fault = g.fault := rfl
@[simp] theorem openCycle_x (g : Generation) (r : Reg) : (openCycle g).x r = g.x r := rfl

@[simp] theorem writeGpr_none (g : Generation) : writeGpr g none = g := rfl
@[simp] theorem writeGpr_some (g : Generation) (d : Reg) (v : Word) : writeGpr g (some (d, v)) = g.setX d v := rfl
@[simp] theorem writeGpr_hi (g : Generation) (e : Option (Reg × Word)) : (writeGpr g e).hi = g.hi := by
  cases e <;> simp [writeGpr]
@[simp] theorem writeGpr_lo (g : Generation) (e : Option (Reg × Word)) : (writeGpr g e).lo = g.lo := by
  cases e <;> simp [writeGpr]
@[simp] theorem writeGpr_ic (g : Generation) (e : Option (Reg × Word)) : (writeGpr g e).ic = g.ic := by
  cases e <;> simp [writeGpr]
@[simp] theorem writeGpr_run (g : Generation) (e : Option (Reg × Word)) : (writeGpr g e).run = g.run := by
  cases e <;> simp [writeGpr]
@[simp] theorem writeGpr_fault (g : Generation) (e : Option (Reg × Word)) : (writeGpr g e).fault = g.fault := by
  cases e <;> simp [writeGpr]
@[simp] theorem writeGpr_zeroCell (g : Generation) (e : Option (Reg × Word)) : (writeGpr g e).gpr[0] = g.gpr[0] := by
  cases e <;> simp [writeGpr]

@[simp] theorem writeRegs_gpr (e : Effects) (g : Generation) : (writeRegs e g).gpr = (writeGpr g e.gpr).gpr := rfl
@[simp] theorem writeRegs_x (e : Effects) (g : Generation) (r : Reg) :
    (writeRegs e g).x r = (writeGpr g e.gpr).x r := rfl
@[simp] theorem writeRegs_hi (e : Effects) (g : Generation) : (writeRegs e g).hi = e.hi.getD g.hi := rfl
@[simp] theorem writeRegs_lo (e : Effects) (g : Generation) : (writeRegs e g).lo = e.lo.getD g.lo := rfl
@[simp] theorem writeRegs_ic (e : Effects) (g : Generation) : (writeRegs e g).ic = g.ic := by simp [writeRegs]
@[simp] theorem writeRegs_run (e : Effects) (g : Generation) : (writeRegs e g).run = g.run := by simp [writeRegs]
@[simp] theorem writeRegs_fault (e : Effects) (g : Generation) : (writeRegs e g).fault = g.fault := by
  simp [writeRegs]

/-! ### commitPC (R41) -/

@[simp] theorem commitPC_gpr (cur : Generation) (d : Option Word) (g : Generation) : (commitPC cur d g).gpr = g.gpr := by
  unfold commitPC; split <;> rfl
@[simp] theorem commitPC_x (cur : Generation) (d : Option Word) (g : Generation) (r : Reg) :
    (commitPC cur d g).x r = g.x r := by
  unfold commitPC; split <;> rfl
@[simp] theorem commitPC_hi (cur : Generation) (d : Option Word) (g : Generation) : (commitPC cur d g).hi = g.hi := by
  unfold commitPC; split <;> rfl
@[simp] theorem commitPC_lo (cur : Generation) (d : Option Word) (g : Generation) : (commitPC cur d g).lo = g.lo := by
  unfold commitPC; split <;> rfl
@[simp] theorem commitPC_ic (cur : Generation) (d : Option Word) (g : Generation) : (commitPC cur d g).ic = g.ic := by
  unfold commitPC; split <;> rfl
@[simp] theorem commitPC_run (cur : Generation) (d : Option Word) (g : Generation) : (commitPC cur d g).run = g.run := by
  unfold commitPC; split <;> rfl
@[simp] theorem commitPC_fault (cur : Generation) (d : Option Word) (g : Generation) :
    (commitPC cur d g).fault = g.fault := by
  unfold commitPC; split <;> rfl

theorem commitPC_inSlot {cur : Generation} {a : Word} (h : cur.pending = some a) (d : Option Word) (g : Generation) :
    (commitPC cur d g).pc = a ∧ (commitPC cur d g).pending = none := by
  unfold commitPC; simp [h]

theorem commitPC_notInSlot {cur : Generation} (h : cur.pending = none) (d : Option Word) (g : Generation) :
    (commitPC cur d g).pc = cur.pc + 4#32 ∧ (commitPC cur d g).pending = d := by
  unfold commitPC; simp [h]

/-! ### retire, takeFault, commit -/

@[simp] theorem retire_current (e : Effects) (s : State) : (retire e s).current = s.current := rfl
@[simp] theorem retire_next (e : Effects) (s : State) :
    (retire e s).next = commitPC s.current e.redirect (writeRegs e (openCycle s.current)) := rfl
@[simp] theorem retire_mem (e : Effects) (s : State) : (retire e s).mem = performStore s.cfg s.mem e.store := rfl
@[simp] theorem retire_image (e : Effects) (s : State) : (retire e s).image = s.image := rfl
@[simp] theorem retire_cfg (e : Effects) (s : State) : (retire e s).cfg = s.cfg := rfl

@[simp] theorem takeFault_current (c : Cause) (w a : Option Word) (s : State) :
    (takeFault c w a s).current = s.current := rfl
@[simp] theorem takeFault_next (c : Cause) (w a : Option Word) (s : State) :
    (takeFault c w a s).next = { s.current with
      ic := s.current.ic + 1, run := false,
      fault := some { cause := c, pc := s.current.pc, word := w, addr := a } } := rfl
@[simp] theorem takeFault_mem (c : Cause) (w a : Option Word) (s : State) : (takeFault c w a s).mem = s.mem := rfl
@[simp] theorem takeFault_image (c : Cause) (w a : Option Word) (s : State) : (takeFault c w a s).image = s.image := rfl
@[simp] theorem takeFault_cfg (c : Cause) (w a : Option Word) (s : State) : (takeFault c w a s).cfg = s.cfg := rfl

@[simp] theorem commit_current (s : State) : (commit s).current = s.next := rfl
@[simp] theorem commit_next (s : State) : (commit s).next = s.next := rfl
@[simp] theorem commit_mem (s : State) : (commit s).mem = s.mem := rfl
@[simp] theorem commit_image (s : State) : (commit s).image = s.image := rfl
@[simp] theorem commit_cfg (s : State) : (commit s).cfg = s.cfg := rfl
@[simp] theorem commitOutcome_next (s : State) : commitOutcome (.next s) = .next (commit s) := rfl

@[simp] theorem performStore_none (c : Config) (m : Memory) : performStore c m none = m := rfl
@[simp] theorem performStore_some (c : Config) (m : Memory) (st : StoreOp) :
    performStore c m (some st) = memWrite c m st.addr st.width.bytes st.data := rfl

end Sys2Proof.Machine
end

