-- ==== Sys2Proof/Laws/Exec.lean ====
section
/-! SUPPORT. What executing an instruction can do, said once: it retires with effects its rule allows, or it raises one of
the faults its rule allows. -/

namespace Sys2Proof.Machine

/-- The effects an instruction may retire with (spec/10_state.md R23, R27; spec/43_loadstore.md R188; spec/44_control.md
R200, R202). -/
structure Allowed (i : Instr) (s : State) (e : Effects) : Prop where
  gpr : ∀ d v, e.gpr = some (d, v) → i.dest = some d
  hi : e.hi ≠ none → i.writesHi = true
  lo : e.lo ≠ none → i.writesLo = true
  store : e.store ≠ none → i.isStore = true
  redirect : e.redirect.isSome = i.isTransfer
  slot : i.isTransfer = true → s.current.pending = none

/-- The faults an instruction may raise (spec/60_exceptions.md R230), with the address each records. -/
inductive MayRaise (s : State) : Instr → Cause → Option Word → Prop where
  | add (rd rs rt : Reg) (h : addOverflows (s.x rs) (s.x rt) = true) : MayRaise s (.add rd rs rt) .arithmeticOverflow none
  | sub (rd rs rt : Reg) (h : subOverflows (s.x rs) (s.x rt) = true) : MayRaise s (.sub rd rs rt) .arithmeticOverflow none
  | addi (rt rs : Reg) (imm : BitVec 16) (h : addOverflows (s.x rs) (sext32 imm) = true) :
      MayRaise s (.addi rt rs imm) .arithmeticOverflow none
  | div (rs rt : Reg) (h : s.x rt = 0#32) : MayRaise s (.div rs rt) .divisionByZero none
  | divu (rs rt : Reg) (h : s.x rt = 0#32) : MayRaise s (.divu rs rt) .divisionByZero none
  | access (i : Instr) (ea : Word) (w : Width) (h : i.access s = some (ea, w)) (ha : w.aligned ea = false) :
      MayRaise s i .unalignedAccess (some ea)
  | slot (i : Instr) (h : i.isTransfer = true) (hp : s.current.pending.isSome) : MayRaise s i .branchInDelaySlot none

/-! ### The shared shapes -/

theorem finish_next (e : Effects) (s : State) : finish e s = .next (retire e s) := rfl

theorem finishGpr_next (d : Reg) (v : Word) (s : State) :
    finishGpr d v s = .next (retire { gpr := some (d, v) } s) := rfl

theorem raise_next (c : Cause) (a : Option Word) (s : State) :
    raise c a s = .next (takeFault c (some (fetchedWord s)) a s) := rfl

theorem transfer_next {s : State} (h : s.current.pending = none) (link : Option (Reg × Word)) (target : Word) :
    transfer link target s = .next (retire { gpr := link, redirect := some target } s) := by
  simp [transfer, h, finish]

theorem transfer_raises {s : State} (h : s.current.pending.isSome) (link : Option (Reg × Word)) (target : Word) :
    transfer link target s = raise .branchInDelaySlot none s := by
  simp [transfer, h]

theorem load_next {w : Width} {rs : Reg} {imm : BitVec 16} {s : State}
    (h : w.aligned (effectiveAddress (s.x rs) imm) = true) (rt : Reg) (read : Config → Memory → Word → Word) :
    load w rt rs imm read s =
      .next (retire { gpr := some (rt, read s.cfg s.mem (effectiveAddress (s.x rs) imm)) } s) := by
  simp [load, h, finishGpr, finish]

theorem load_raises {w : Width} {rs : Reg} {imm : BitVec 16} {s : State}
    (h : w.aligned (effectiveAddress (s.x rs) imm) = false) (rt : Reg) (read : Config → Memory → Word → Word) :
    load w rt rs imm read s = raise .unalignedAccess (some (effectiveAddress (s.x rs) imm)) s := by
  simp [load, h]

theorem store_next {w : Width} {rs : Reg} {imm : BitVec 16} {s : State}
    (h : w.aligned (effectiveAddress (s.x rs) imm) = true) (rt : Reg) :
    store w rt rs imm s =
      .next (retire { store := some { addr := effectiveAddress (s.x rs) imm, width := w, data := s.x rt } } s) := by
  simp [store, h, finish]

theorem store_raises {w : Width} {rs : Reg} {imm : BitVec 16} {s : State}
    (h : w.aligned (effectiveAddress (s.x rs) imm) = false) (rt : Reg) :
    store w rt rs imm s = raise .unalignedAccess (some (effectiveAddress (s.x rs) imm)) s := by
  simp [store, h]

/-! ### Every instruction -/

/-- Executing an instruction retires it with allowed effects, or raises a fault it may raise. -/
def ExecShape (i : Instr) (s : State) : Prop :=
  (∃ e, exec i s = .next (retire e s) ∧ Allowed i s e) ∨
  (∃ c a, exec i s = .next (takeFault c (some (fetchedWord s)) a s) ∧ MayRaise s i c a)

theorem shape_gpr {i : Instr} {s : State} {d : Reg} {v : Word} (h : exec i s = finishGpr d v s)
    (hd : i.dest = some d) (ht : i.isTransfer = false) : ExecShape i s :=
  .inl ⟨_, h, { gpr := fun d' v' e => by simp_all
                hi := by simp
                lo := by simp
                store := by simp
                redirect := by simp [ht]
                slot := by simp [ht] }⟩

theorem shape_transfer {i : Instr} {s : State} {link : Option (Reg × Word)} {target : Word}
    (h : exec i s = transfer link target s) (hl : ∀ d v, link = some (d, v) → i.dest = some d)
    (ht : i.isTransfer = true) : ExecShape i s := by
  by_cases hp : s.current.pending.isSome
  · exact .inr ⟨_, _, h.trans (transfer_raises hp _ _), .slot _ ht hp⟩
  · have hn : s.current.pending = none := by simpa using hp
    exact .inl ⟨_, h.trans (transfer_next hn _ _),
      { gpr := hl, hi := by simp, lo := by simp, store := by simp, redirect := by simp [ht], slot := fun _ => hn }⟩

theorem shape_load {i : Instr} {s : State} {w : Width} {rt rs : Reg} {imm : BitVec 16}
    {read : Config → Memory → Word → Word} (h : exec i s = load w rt rs imm read s) (hd : i.dest = some rt)
    (ht : i.isTransfer = false) (ha : i.access s = some (effectiveAddress (s.x rs) imm, w)) : ExecShape i s := by
  cases hw : w.aligned (effectiveAddress (s.x rs) imm) with
  | false => exact .inr ⟨_, _, h.trans (load_raises hw _ _), .access _ _ _ ha hw⟩
  | true => exact shape_gpr (h.trans (load_next hw _ _)) hd ht

theorem shape_store {i : Instr} {s : State} {w : Width} {rt rs : Reg} {imm : BitVec 16}
    (h : exec i s = store w rt rs imm s) (hs : i.isStore = true)
    (ht : i.isTransfer = false) (ha : i.access s = some (effectiveAddress (s.x rs) imm, w)) : ExecShape i s := by
  cases hw : w.aligned (effectiveAddress (s.x rs) imm) with
  | false => exact .inr ⟨_, _, h.trans (store_raises hw _), .access _ _ _ ha hw⟩
  | true =>
    exact .inl ⟨_, h.trans (store_next hw _),
      { gpr := by simp, hi := by simp, lo := by simp, store := fun _ => hs, redirect := by simp [ht],
        slot := by simp [ht] }⟩

theorem shape_trap {i : Instr} {s : State} {b : Bool} {c : Cause} {o : Host.Outcome State Fault Refusal}
    (h : exec i s = if b then raise c none s else o) (hr : b = true → MayRaise s i c none)
    (ho : exec i s = o → ExecShape i s) : ExecShape i s := by
  cases b with
  | true => exact .inr ⟨_, _, h, hr rfl⟩
  | false => exact ho (by simpa using h)

theorem shape_hiLo {i : Instr} {s : State} {hi lo : Word} (h : exec i s = finishHiLo hi lo s)
    (hh : i.writesHi = true) (hl : i.writesLo = true) (ht : i.isTransfer = false) : ExecShape i s :=
  .inl ⟨_, h, { gpr := by simp, hi := fun _ => hh, lo := fun _ => hl, store := by simp, redirect := by simp [ht],
                slot := by simp [ht] }⟩

/-- The inversion of `exec`, over all 41 instructions. -/
theorem exec_shape (i : Instr) (s : State) : ExecShape i s := by
  cases i with
  | sll rd rt shamt => exact shape_gpr rfl rfl rfl
  | srl rd rt shamt => exact shape_gpr rfl rfl rfl
  | sra rd rt shamt => exact shape_gpr rfl rfl rfl
  | jr rs => exact shape_transfer rfl (by simp) rfl
  | jalr rd rs => exact shape_transfer rfl (by simp [Instr.dest]) rfl
  | mfhi rd => exact shape_gpr rfl rfl rfl
  | mthi rs =>
    exact .inl ⟨_, rfl, { gpr := by simp, hi := fun _ => rfl, lo := by simp, store := by simp, redirect := rfl,
                          slot := by simp [Instr.isTransfer] }⟩
  | mflo rd => exact shape_gpr rfl rfl rfl
  | mtlo rs =>
    exact .inl ⟨_, rfl, { gpr := by simp, hi := by simp, lo := fun _ => rfl, store := by simp, redirect := rfl,
                          slot := by simp [Instr.isTransfer] }⟩
  | mult rs rt => exact shape_hiLo rfl rfl rfl rfl
  | multu rs rt => exact shape_hiLo rfl rfl rfl rfl
  | div rs rt =>
    by_cases h : s.x rt = 0#32
    · exact .inr ⟨_, _, by simp [exec, execDiv, h, raise_next], .div rs rt h⟩
    · exact shape_hiLo (show exec (.div rs rt) s = _ from if_neg h) rfl rfl rfl
  | divu rs rt =>
    by_cases h : s.x rt = 0#32
    · exact .inr ⟨_, _, by simp [exec, execDivu, h, raise_next], .divu rs rt h⟩
    · exact shape_hiLo (show exec (.divu rs rt) s = _ from if_neg h) rfl rfl rfl
  | add rd rs rt => exact shape_trap rfl (.add rd rs rt) fun h => shape_gpr h rfl rfl
  | addu rd rs rt => exact shape_gpr rfl rfl rfl
  | sub rd rs rt => exact shape_trap rfl (.sub rd rs rt) fun h => shape_gpr h rfl rfl
  | subu rd rs rt => exact shape_gpr rfl rfl rfl
  | and rd rs rt => exact shape_gpr rfl rfl rfl
  | or rd rs rt => exact shape_gpr rfl rfl rfl
  | xor rd rs rt => exact shape_gpr rfl rfl rfl
  | nor rd rs rt => exact shape_gpr rfl rfl rfl
  | slt rd rs rt => exact shape_gpr rfl rfl rfl
  | j target => exact shape_transfer rfl (by simp) rfl
  | jal target => exact shape_transfer rfl (by simp [Instr.dest]) rfl
  | beq rs rt off => exact shape_transfer rfl (by simp) rfl
  | bne rs rt off => exact shape_transfer rfl (by simp) rfl
  | blez rs off => exact shape_transfer rfl (by simp) rfl
  | bgtz rs off => exact shape_transfer rfl (by simp) rfl
  | addi rt rs imm => exact shape_trap rfl (.addi rt rs imm) fun h => shape_gpr h rfl rfl
  | addiu rt rs imm => exact shape_gpr rfl rfl rfl
  | slti rt rs imm => exact shape_gpr rfl rfl rfl
  | andi rt rs imm => exact shape_gpr rfl rfl rfl
  | ori rt rs imm => exact shape_gpr rfl rfl rfl
  | xori rt rs imm => exact shape_gpr rfl rfl rfl
  | lui rt imm => exact shape_gpr rfl rfl rfl
  | lb rt rs imm => exact shape_load rfl rfl rfl rfl
  | lh rt rs imm => exact shape_load rfl rfl rfl rfl
  | lw rt rs imm => exact shape_load rfl rfl rfl rfl
  | sb rt rs imm => exact shape_store rfl rfl rfl rfl
  | sh rt rs imm => exact shape_store rfl rfl rfl rfl
  | sw rt rs imm => exact shape_store rfl rfl rfl rfl

/-- What `exec` answered, read back: an allowed retirement, or a fault the instruction may raise. -/
theorem exec_cases {i : Instr} {s t : State} (h : exec i s = .next t) :
    (∃ e, t = retire e s ∧ Allowed i s e) ∨
    (∃ c a, t = takeFault c (some (fetchedWord s)) a s ∧ MayRaise s i c a) := by
  rcases exec_shape i s with ⟨e, he, ha⟩ | ⟨c, a, he, ha⟩
  · rw [h] at he; cases he; exact .inl ⟨e, rfl, ha⟩
  · rw [h] at he; cases he; exact .inr ⟨c, a, rfl, ha⟩

/-- A control transfer outside a delay slot retires with its redirect target. -/
theorem exec_transfer {i : Instr} {s : State} (hp : s.current.pending = none) (ht : i.isTransfer = true) :
    ∃ link target, exec i s = .next (retire { gpr := link, redirect := some target } s) ∧
      some target = i.redirectTarget s := by
  cases i <;> simp [Instr.isTransfer] at ht <;> refine ⟨_, _, transfer_next hp _ _, ?_⟩
  all_goals simp [Instr.redirectTarget, afterSlot, leZero, gtZero, bne]

theorem redirectTarget_none {i : Instr} {s : State} (h : i.isTransfer = false) : i.redirectTarget s = none := by
  cases i <;> first | rfl | simp [Instr.isTransfer] at h

/-- The redirect an instruction retires with is its redirect target. -/
theorem retire_redirect {i : Instr} {s : State} {e : Effects} (h : exec i s = .next (retire e s))
    (ha : Allowed i s e) : e.redirect = i.redirectTarget s := by
  cases ht : i.isTransfer with
  | false =>
    rw [redirectTarget_none ht]
    have := ha.redirect
    simp_all
  | true =>
    obtain ⟨l, tg, h1, h2⟩ := exec_transfer (ha.slot ht) ht
    rw [h] at h1
    have h3 := congrArg Generation.pending (congrArg State.next (Host.Outcome.next.inj h1))
    simp only [retire_next, (commitPC_notInSlot (ha.slot ht) _ _).2] at h3
    rw [h3, h2]

theorem access_notTransfer {i : Instr} {s : State} {p : Word × Width} (h : i.access s = some p) :
    i.isTransfer = false := by
  cases i <;> first | rfl | simp [Instr.access] at h

/-- A load or store: what it does on each side of its alignment check. -/
theorem exec_access {i : Instr} {s : State} {ea : Word} {w : Width} (h : i.access s = some (ea, w)) :
    (w.aligned ea = false → exec i s = raise .unalignedAccess (some ea) s) ∧
    (w.aligned ea = true → ∃ e, exec i s = .next (retire e s) ∧
      (e.store = none ∨ i.isStore = true ∧ ∃ v, e = { store := some { addr := ea, width := w, data := v } })) := by
  cases i <;> simp [Instr.access] at h
  all_goals obtain ⟨rfl, rfl⟩ := h
  all_goals first
    | exact ⟨fun h => load_raises h _ _, fun h => ⟨_, load_next h _ _, .inl rfl⟩⟩
    | exact ⟨fun h => store_raises h _, fun h => ⟨_, store_next h _, .inr ⟨rfl, _, rfl⟩⟩⟩

/-! ### What a step does, said once -/

theorem step_stopped {s : State} (h : s.current.run = false) : step s = .next s := by
  simp [step, h]

theorem step_fetchFault {s : State} {c : Cause} (h : s.current.run = true) (hf : fetch s = .error c) :
    step s = .next (commit (takeFetchFault c s)) := by
  simp [step, h, cycle, hf]

theorem step_illegal {s : State} {w : Word} {r : Reject} (h : s.current.run = true) (hf : fetch s = .ok w)
    (hd : decodeInstr w = .error r) : step s = .next (commit (takeIllegal w s)) := by
  simp [step, h, cycle, hf, runWord, hd]

theorem step_exec {s : State} {w : Word} {i : Instr} (h : s.current.run = true) (hf : fetch s = .ok w)
    (hd : decodeInstr w = .ok i) : step s = commitOutcome (exec i s) := by
  simp [step, h, cycle, hf, runWord, hd]

/-- The word a fetch answers is the one the fault record of an instruction names (log entry 6). -/
theorem fetch_eq_fetchedWord {s : State} {w : Word} (h : fetch s = .ok w) : w = fetchedWord s := by
  unfold fetch at h
  simp only at h
  split at h
  · simp at h
  · split at h
    · exact (by simpa [fetchedWord] using h.symm)
    · simp at h

end Sys2Proof.Machine
end

