-- ==== Sys2Proof/Laws/Memory.lean ====
section
/-! SUPPORT. The laws of memory: a read after a write, the canonical form kept by every operation, and what a list of
bytes written at an address changes. -/

namespace Sys2Proof.Machine

/-! ### Reading and writing one cell -/

theorem Memory.read_eq_zero_of_lt {m : Memory} {a : Nat} (h : ∀ p ∈ m, a < p.1) : Memory.read m a = 0#8 := by
  induction m with
  | nil => rfl
  | cons p m ih =>
    obtain ⟨k, b⟩ := p
    have hk : a < k := h (k, b) (by simp)
    have hne : k ≠ a := by omega
    simp only [Memory.read, hne, if_false]
    exact ih fun q hq => h q (by simp [hq])

/-- Every address a write leaves listed was listed before or is the written one with the written byte. -/
theorem Memory.mem_write {m : Memory} {a : Nat} {v : Byte} {p : Host.Cell} (h : p ∈ Memory.write m a v) :
    p ∈ m ∨ (p = (a, v) ∧ v ≠ 0#8) := by
  induction m with
  | nil =>
    simp only [Memory.write] at h
    split at h
    · simp at h
    · next hv => exact .inr ⟨by simpa using h, hv⟩
  | cons q m ih =>
    obtain ⟨k, b⟩ := q
    simp only [Memory.write] at h
    split at h
    · split at h
      · exact .inl h
      · next hv =>
        rcases List.mem_cons.mp h with h | h
        · exact .inr ⟨h, hv⟩
        · exact .inl h
    · split at h
      · split at h
        · exact .inl (List.mem_cons_of_mem _ h)
        · next hv =>
          rcases List.mem_cons.mp h with h | h
          · exact .inr ⟨h, hv⟩
          · exact .inl (List.mem_cons_of_mem _ h)
      · rcases List.mem_cons.mp h with h | h
        · exact .inl (by simp [h])
        · rcases ih h with h | h
          · exact .inl (List.mem_cons_of_mem _ h)
          · exact .inr h

/-- A write keeps the canonical form. -/
theorem Memory.write_wf {m : Memory} (h : Memory.wf m) (a : Nat) (v : Byte) : Memory.wf (Memory.write m a v) := by
  refine ⟨?_, fun p hp => ?_⟩
  · obtain ⟨hs, -⟩ := h
    induction m with
    | nil => simp only [Memory.write]; split <;> simp
    | cons q m ih =>
      obtain ⟨k, b⟩ := q
      obtain ⟨hk, hm⟩ := List.pairwise_cons.mp hs
      simp only [Memory.write]
      split
      · next hlt =>
        split
        · exact hs
        · refine List.pairwise_cons.mpr ⟨fun p hp => ?_, hs⟩
          rcases List.mem_cons.mp hp with rfl | hp
          · exact hlt
          · exact lt_trans hlt (hk p hp)
      · next hge =>
        split
        · next heq =>
          split
          · exact hm
          · exact List.pairwise_cons.mpr ⟨fun p hp => heq ▸ hk p hp, hm⟩
        · next hne =>
          refine List.pairwise_cons.mpr ⟨fun p hp => ?_, ih hm⟩
          rcases Memory.mem_write hp with hp | ⟨rfl, -⟩
          · exact hk p hp
          · simp only; omega
  · rcases Memory.mem_write hp with hp | ⟨rfl, hv⟩
    · exact h.2 p hp
    · exact hv

/-- A read after a write: the byte written at that address, the old byte elsewhere. -/
theorem Memory.read_write {m : Memory} (h : Memory.wf m) (a b : Nat) (v : Byte) :
    Memory.read (Memory.write m a v) b = if b = a then v else Memory.read m b := by
  obtain ⟨hs, -⟩ := h
  induction m with
  | nil =>
    simp only [Memory.write]
    split
    · next hv => simp [Memory.read, hv]
    · simp only [Memory.read, eq_comm]
  | cons q m ih =>
    obtain ⟨k, c⟩ := q
    obtain ⟨hk, hm⟩ := List.pairwise_cons.mp hs
    simp only [Memory.write]
    split
    · next hlt =>
      split
      · next hv =>
        split
        · next hb =>
          rw [hv, hb]
          refine Memory.read_eq_zero_of_lt fun p hp => ?_
          rcases List.mem_cons.mp hp with rfl | hp
          · exact hlt
          · exact lt_trans hlt (hk p hp)
        · rfl
      · simp only [Memory.read, eq_comm (a := a)]
    · next hge =>
      split
      · next heq =>
        subst heq
        split
        · next hv =>
          by_cases hb : b = a
          · rw [if_pos hb, hv, hb]
            exact Memory.read_eq_zero_of_lt fun p hp => hk p hp
          · have : a ≠ b := fun e => hb e.symm
            simp [Memory.read, hb, this]
        · by_cases hb : b = a
          · simp [Memory.read, hb]
          · have : a ≠ b := fun e => hb e.symm
            simp [Memory.read, hb, this]
      · next hne =>
        simp only [Memory.read, ih hm]
        by_cases hkb : k = b
        · have : b ≠ a := by omega
          simp [hkb, this]
        · simp [hkb]

/-! ### Mapped bytes (R55, R56) -/

/-- Only mapped addresses hold a byte. -/
abbrev Memory.inRegions (c : Config) (m : Memory) : Prop :=
  ∀ p ∈ m, p.1 < 2 ^ 32 ∧ mapped c (BitVec.ofNat 32 p.1) = true

theorem setByte_wf {c : Config} {m : Memory} (h : Memory.wf m) (a : Word) (b : Byte) :
    Memory.wf (setByte c m a b) := by
  unfold setByte; split
  · exact Memory.write_wf h _ _
  · exact h

theorem setByte_inRegions {c : Config} {m : Memory} (h : Memory.inRegions c m) (a : Word) (b : Byte) :
    Memory.inRegions c (setByte c m a b) := by
  unfold setByte; split
  · next hmap =>
    intro p hp
    rcases Memory.mem_write hp with hp | ⟨rfl, -⟩
    · exact h p hp
    · exact ⟨a.isLt, by simpa using hmap⟩
  · exact h

/-- One byte written: it reads back where it is mapped, and every other byte reads as before. -/
theorem byteAt_setByte {c : Config} {m : Memory} (h : Memory.wf m) (a b : Word) (v : Byte) :
    byteAt c (setByte c m a v) b = if b = a ∧ mapped c b = true then v else byteAt c m b := by
  unfold byteAt setByte
  by_cases hb : mapped c b = true
  · by_cases hab : b = a
    · subst hab; simp [hb, Memory.read_write h]
    · have : b.toNat ≠ a.toNat := fun e => hab (BitVec.eq_of_toNat_eq e)
      by_cases ha : mapped c a = true <;> simp [hb, hab, ha, Memory.read_write h, this]
  · simp [hb]

/-! ### A list of bytes written at an address (R56, R60) -/

theorem writeBytes_wf {c : Config} {m : Memory} (h : Memory.wf m) (a : Word) (bs : List Byte) :
    Memory.wf (writeBytes c m a bs) := by
  induction bs generalizing m a with
  | nil => exact h
  | cons b bs ih => exact ih (setByte_wf h a b) _

theorem writeBytes_inRegions {c : Config} {m : Memory} (h : Memory.inRegions c m) (a : Word) (bs : List Byte) :
    Memory.inRegions c (writeBytes c m a bs) := by
  induction bs generalizing m a with
  | nil => exact h
  | cons b bs ih => exact ih (setByte_inRegions h a b) _

/-- A list of bytes written: the byte at offset `b - a` where it is mapped and inside the list, the old byte
elsewhere. -/
theorem byteAt_writeBytes {c : Config} {m : Memory} (h : Memory.wf m) (a b : Word) (bs : List Byte)
    (hlen : bs.length ≤ 2 ^ 32) :
    byteAt c (writeBytes c m a bs) b =
      if mapped c b = true then bs.getD (b - a).toNat (byteAt c m b) else 0#8 := by
  induction bs generalizing m a with
  | nil => unfold byteAt; by_cases hb : mapped c b = true <;> simp [writeBytes, hb]
  | cons v bs ih =>
    have hl : bs.length < 2 ^ 32 := by simpa using hlen
    simp only [writeBytes]
    rw [ih (setByte_wf h a v) (a + 1#32) hl.le, byteAt_setByte h]
    by_cases hb : mapped c b = true
    · simp only [hb, if_true, and_true]
      by_cases hab : b = a
      · subst hab
        have h0 : (b - b).toNat = 0 := by simp
        have h1 : (b - (b + 1#32)).toNat = 2 ^ 32 - 1 := by bv_omega
        rw [h0, h1]
        rw [List.getD_eq_default _ _ (by omega)]
        simp
      · have : (b - a).toNat = (b - (a + 1#32)).toNat + 1 := by bv_omega
        rw [this]; simp [hab]
    · simp [hb]

theorem leBytes_length (n : Nat) (v : Word) : (leBytes n v).length = n := by simp [leBytes]

theorem leBytes_getD (n i : Nat) (v : Word) (d : Byte) :
    (leBytes n v).getD i d = if i < n then byteOf v i else d := by
  unfold leBytes
  by_cases h : i < n
  · simp [List.getD, h]
  · simp [List.getD, h]

/-- What `MemWrite` changes, byte by byte (R56). -/
theorem byteAt_memWrite {c : Config} {m : Memory} (h : Memory.wf m) (a b v : Word) {n : Nat} (hn : n ≤ 2 ^ 32) :
    byteAt c (memWrite c m a n v) b =
      if mapped c b = true then (if (b - a).toNat < n then byteOf v (b - a).toNat else byteAt c m b) else 0#8 := by
  unfold memWrite
  rw [byteAt_writeBytes h a b _ (by simpa [leBytes_length] using hn)]
  simp only [leBytes_getD]

theorem byteAt_unmapped {c : Config} (m : Memory) {a : Word} (h : mapped c a = false) : byteAt c m a = 0#8 := by
  simp [byteAt, h]

theorem memWrite_wf {c : Config} {m : Memory} (h : Memory.wf m) (a : Word) (n : Nat) (v : Word) :
    Memory.wf (memWrite c m a n v) := writeBytes_wf h a _

theorem memWrite_inRegions {c : Config} {m : Memory} (h : Memory.inRegions c m) (a : Word) (n : Nat) (v : Word) :
    Memory.inRegions c (memWrite c m a n v) := writeBytes_inRegions h a _

theorem performStore_wf {c : Config} {m : Memory} (h : Memory.wf m) (st : Option StoreOp) :
    Memory.wf (performStore c m st) := by
  cases st with
  | none => exact h
  | some st => exact memWrite_wf h _ _ _

theorem performStore_inRegions {c : Config} {m : Memory} (h : Memory.inRegions c m) (st : Option StoreOp) :
    Memory.inRegions c (performStore c m st) := by
  cases st with
  | none => exact h
  | some st => exact memWrite_inRegions h _ _ _

/-- Byte `k` of a write, where it is mapped (R56). -/
theorem byteAt_memWrite_add {c : Config} {m : Memory} (h : Memory.wf m) (a v : Word) {n k : Nat} (hn : n ≤ 4)
    (hk : k < n) (hmap : mapped c (a + BitVec.ofNat 32 k) = true) :
    byteAt c (memWrite c m a n v) (a + BitVec.ofNat 32 k) = byteOf v k := by
  rw [byteAt_memWrite h _ _ _ (by omega)]
  have : (a + BitVec.ofNat 32 k - a).toNat = k := by
    have : k < 4 := by omega
    bv_omega
  simp only [hmap, this, hk, if_true]

/-- A write to unmapped bytes only changes nothing (R57). -/
theorem writeBytes_unmapped {c : Config} {m : Memory} (a : Word) (bs : List Byte)
    (h : ∀ k < bs.length, mapped c (a + BitVec.ofNat 32 k) = false) : writeBytes c m a bs = m := by
  induction bs generalizing a with
  | nil => rfl
  | cons b bs ih =>
    have h0 := h 0 (by simp)
    simp only [BitVec.add_zero] at h0
    simp only [writeBytes, setByte, h0]
    refine ih _ fun k hk => ?_
    have := h (k + 1) (by simpa using hk)
    rw [BitVec.add_assoc, BitVec.add_comm 1#32]
    rwa [BitVec.ofNat_add] at this

/-- A write leaves the cell of an unmapped address (R56). -/
theorem read_writeBytes_unmapped {c : Config} {m : Memory} (hm : Memory.wf m) (a d : Word) (bs : List Byte)
    (h : mapped c d = false) : Memory.read (writeBytes c m a bs) d.toNat = Memory.read m d.toNat := by
  induction bs generalizing a m with
  | nil => rfl
  | cons b bs ih =>
    rw [writeBytes, ih (setByte_wf hm _ _)]
    unfold setByte
    split
    · next hmap =>
      rw [Memory.read_write hm, if_neg]
      intro e
      rw [BitVec.eq_of_toNat_eq e, hmap] at h
      cases h
    · rfl

/-- A word written to mapped bytes reads back. -/
theorem memRead32_memWrite {c : Config} {m : Memory} (hm : Memory.wf m) (a v : Word)
    (h : ∀ k < 4, mapped c (a + BitVec.ofNat 32 k) = true) : memRead32 c (memWrite c m a 4 v) a = v := by
  have hb := fun k hk => byteAt_memWrite_add hm a v (n := 4) (k := k) (by omega) hk (h k hk)
  have h0 := hb 0 (by decide)
  simp only [BitVec.add_zero] at h0
  unfold memRead32
  rw [h0, hb 1 (by decide), hb 2 (by decide), hb 3 (by decide), leWord_byteOf]

/-- The memory after reset is in canonical form. -/
theorem reset_mem_wf : Memory.wf State.reset.mem := by decide

end Sys2Proof.Machine
end

