-- ==== Sys2Proof/Laws/Frames.lean ====
section
/-! SUPPORT. What a retired or faulting instruction leaves, in the predicates the statements use; and the inversion of
`step`. -/

namespace Sys2Proof.Machine

/-! ### Retiring -/

theorem writeGpr_x (g : Generation) (d : Reg) (v : Word) (r : Reg) :
    (writeGpr g (some (d, v))).x r = if r = d ∧ r ≠ 0 then v else g.x r := by
  simp [Generation.x_setX]

theorem retire_pcCommitted (e : Effects) (s : State) : PcCommitted e.redirect s (retire e s) :=
  ⟨fun _ h => commitPC_inSlot h _ _, fun h => commitPC_notInSlot h _ _⟩

theorem retire_controlKept (e : Effects) (s : State) : ControlKept s (retire e s) := by
  simp [ControlKept]

/-- An instruction that stores nothing leaves every byte. -/
theorem retire_bytesKept {e : Effects} (h : e.store = none) (s : State) : BytesKept s (retire e s) := by
  simp [BytesKept, h]

theorem retire_hiLoKept {e : Effects} (hh : e.hi = none) (hl : e.lo = none) (s : State) :
    HiLoKept s (retire e s) := by
  simp [HiLoKept, hh, hl]

theorem retire_regsKept {e : Effects} (h : e.gpr = none) (s : State) : RegsKept s (retire e s) := by
  intro r; simp [h]

theorem retire_regWritten {e : Effects} {d : Reg} {v : Word} (h : e.gpr = some (d, v)) (s : State) :
    RegWritten d v s (retire e s) := by
  intro r; simp [h, Generation.x_setX]

theorem retire_gprOnly (d : Reg) (v : Word) (s : State) : GprOnly d v s (retire { gpr := some (d, v) } s) :=
  ⟨retire_regWritten rfl s, retire_hiLoKept rfl rfl s, retire_bytesKept rfl s, retire_pcCommitted _ s,
    retire_controlKept _ s⟩

theorem retire_hiLoOnly (hi lo : Option Word) (s : State) :
    HiLoOnly (hi.getD s.current.hi) (lo.getD s.current.lo) s (retire { hi := hi, lo := lo } s) :=
  ⟨by simp, by simp, retire_regsKept rfl s, retire_bytesKept rfl s, retire_pcCommitted _ s, retire_controlKept _ s⟩

/-- A store writes its bytes and no other byte. -/
theorem retire_bytesWritten {s : State} (hm : Memory.wf s.mem) (ea v : Word) (w : Width) :
    BytesWritten ea w.bytes v s (retire { store := some { addr := ea, width := w, data := v } } s) := by
  have hn : w.bytes ≤ 2 ^ 32 := by cases w <;> decide
  have key : ∀ a, byteAt s.cfg (memWrite s.cfg s.mem ea w.bytes v) a = _ := fun a => byteAt_memWrite hm ea a v hn
  refine ⟨fun a ha hmap => (key a).trans ?_, fun a _ hmap => byteAt_unmapped _ hmap, fun a ha => (key a).trans ?_⟩
  · unfold InAccess at ha
    rw [if_pos hmap, if_pos ha]
  · unfold InAccess at ha
    rw [if_neg ha]
    unfold byteAt
    split <;> rfl

theorem retire_storeOnly {s : State} (hm : Memory.wf s.mem) (ea v : Word) (w : Width) :
    StoreOnly ea w.bytes v s (retire { store := some { addr := ea, width := w, data := v } } s) :=
  ⟨retire_bytesWritten hm ea v w, retire_regsKept rfl s, retire_hiLoKept rfl rfl s, retire_pcCommitted _ s,
    retire_controlKept _ s⟩

theorem retire_redirectOnly {s : State} (h : s.current.pending = none) (target : Word) :
    RedirectOnly target s (retire { redirect := some target } s) :=
  ⟨(commitPC_notInSlot h _ _).1, (commitPC_notInSlot h _ _).2, retire_regsKept rfl s, retire_hiLoKept rfl rfl s,
    retire_bytesKept rfl s, retire_controlKept _ s⟩

theorem retire_redirectAndLink {s : State} (h : s.current.pending = none) (d : Reg) (link target : Word) :
    RedirectAndLink d link target s (retire { gpr := some (d, link), redirect := some target } s) :=
  ⟨(commitPC_notInSlot h _ _).1, (commitPC_notInSlot h _ _).2, retire_regWritten rfl s, retire_hiLoKept rfl rfl s,
    retire_bytesKept rfl s, retire_controlKept _ s⟩

/-! ### Faulting -/

theorem takeFault_raised (c : Cause) (w a : Option Word) (s : State) : Raised c w a s (takeFault c w a s) :=
  ⟨rfl, rfl, rfl, rfl, rfl⟩

theorem raised_regsKept {c : Cause} {w a : Option Word} {s t : State} (h : Raised c w a s t) : RegsKept s t := by
  intro r; simp [h.1, Generation.x]

theorem raised_bytesKept {c : Cause} {w a : Option Word} {s t : State} (h : Raised c w a s t) : BytesKept s t := by
  obtain ⟨-, hm, -, hc, -⟩ := h
  intro b; rw [hm, hc]

/-! ### The fetch -/

/-- The fetch, said as R62 and R239 say it: misaligned, or a byte unmapped, or the word at the PC. -/
inductive FetchShape (s : State) : Prop where
  | misaligned (h : fetch s = .error .unalignedAccess) (ha : Width.word.aligned s.current.pc = false)
  | unmapped (h : fetch s = .error .unmappedFetch) (ha : Width.word.aligned s.current.pc = true)
      (hm : ∃ k < 4, mapped s.cfg (s.current.pc + BitVec.ofNat 32 k) = false)
  | word (h : fetch s = .ok (fetchedWord s)) (ha : Width.word.aligned s.current.pc = true)
      (hm : ∀ k < 4, mapped s.cfg (s.current.pc + BitVec.ofNat 32 k) = true)

theorem fetch_shape (s : State) : FetchShape s := by
  cases ha : Width.word.aligned s.current.pc with
  | false => exact .misaligned (by simp [fetch, ha]) ha
  | true =>
    by_cases hm : ∀ k < 4, mapped s.cfg (s.current.pc + BitVec.ofNat 32 k) = true
    · refine .word ?_ ha hm
      have h0 := hm 0 (by decide)
      have h1 := hm 1 (by decide)
      have h2 := hm 2 (by decide)
      have h3 := hm 3 (by decide)
      simp only [BitVec.add_zero] at h0 h1 h2 h3
      simp [fetch, ha, h0, h1, h2, h3, fetchedWord]
    · refine .unmapped ?_ ha (by simpa using hm)
      have : (mapped s.cfg s.current.pc && mapped s.cfg (s.current.pc + 1#32) &&
          mapped s.cfg (s.current.pc + 2#32) && mapped s.cfg (s.current.pc + 3#32)) = false := by
        rw [Bool.eq_false_iff]
        intro h
        simp only [Bool.and_eq_true] at h
        obtain ⟨⟨⟨h0, h1⟩, h2⟩, h3⟩ := h
        refine hm fun k hk => ?_
        match k, hk with
        | 0, _ => simpa using h0
        | 1, _ => exact h1
        | 2, _ => exact h2
        | 3, _ => exact h3
      simp [fetch, ha, this]

/-! ### The step -/

/-- What a step can do: nothing when STOPPED; otherwise the commit of a retired instruction or of a fault that stops the
machine, the fault being of the fetch, of the word, or of the instruction. -/
inductive StepShape (s t : State) : Prop where
  | stopped (h : s.current.run = false) (ht : t = s)
  | fetchFault (c : Cause) (h : s.current.run = true) (hf : fetch s = .error c) (ht : t = commit (takeFetchFault c s))
  | illegal (r : Reject) (h : s.current.run = true) (hf : fetch s = .ok (fetchedWord s))
      (hd : decodeInstr (fetchedWord s) = .error r) (ht : t = commit (takeIllegal (fetchedWord s) s))
  | retired (i : Instr) (e : Effects) (h : s.current.run = true) (hf : fetch s = .ok (fetchedWord s))
      (hd : decodeInstr (fetchedWord s) = .ok i) (he : exec i s = .next (retire e s)) (ha : Allowed i s e)
      (ht : t = commit (retire e s))
  | raised (i : Instr) (c : Cause) (a : Option Word) (h : s.current.run = true) (hf : fetch s = .ok (fetchedWord s))
      (hd : decodeInstr (fetchedWord s) = .ok i)
      (he : exec i s = .next (takeFault c (some (fetchedWord s)) a s)) (hm : MayRaise s i c a)
      (ht : t = commit (takeFault c (some (fetchedWord s)) a s))

theorem step_shape (s : State) : ∃ t, step s = .next t ∧ StepShape s t := by
  cases h : s.current.run with
  | false => exact ⟨s, step_stopped h, .stopped h rfl⟩
  | true =>
    cases hf : fetch s with
    | error c => exact ⟨_, step_fetchFault h hf, .fetchFault c h hf rfl⟩
    | ok w =>
      obtain rfl := fetch_eq_fetchedWord hf
      cases hd : decodeInstr (fetchedWord s) with
      | error r => exact ⟨_, step_illegal h hf hd, .illegal r h hf hd rfl⟩
      | ok i =>
        rcases exec_shape i s with ⟨e, he, ha⟩ | ⟨c, a, he, hm⟩
        · exact ⟨_, by rw [step_exec h hf hd, he]; rfl, .retired i e h hf hd he ha rfl⟩
        · exact ⟨_, by rw [step_exec h hf hd, he]; rfl, .raised i c a h hf hd he hm rfl⟩

/-- The inversion of `step`. -/
theorem stepShape_of_step {s t : State} (h : step s = .next t) : StepShape s t := by
  obtain ⟨u, hu, hs⟩ := step_shape s
  rw [h] at hu
  cases hu
  exact hs

end Sys2Proof.Machine
end

