-- ==== Sys2Proof/Laws/Block.lean ====
section
/-! SUPPORT. What each part of the block computes, in the terms of the cycle: the edge logic is the commit, the resolver is
the memory primitives. -/

namespace Sys2Proof.Machine

/-! ### The edge (R294) -/

/-- The effects the engine's enabled outputs ask for. -/
def EngineOut.effects (e : EngineOut) : Effects where
  gpr := if e.gprWe then some (regOf e.gprWaddr, e.gprWdata) else none
  hi := if e.hiWe then some e.hiWdata else none
  lo := if e.loWe then some e.loWdata else none
  redirect := if e.redirectValid then some e.redirectTarget else none

theorem cleanEdge_eq (g : Generation) (e : EngineOut) :
    cleanEdge g e = commitPC g e.effects.redirect (writeRegs e.effects (openCycle g)) := by
  obtain ⟨we, wa, wd, hw, hd, lw, ld, rv, rt, fv, fc⟩ := e
  unfold cleanEdge commitPC writeRegs EngineOut.effects
  have hreg : we = true →
      (if (true && wa != 0#5) = true then g.gpr.set wa.toNat wd wa.isLt else g.gpr) =
        ((openCycle g).setX (regOf wa) wd).gpr := by
    intro _
    unfold Generation.setX
    by_cases h : wa = 0#5
    · subst h; rfl
    · have : regOf wa ≠ 0 := fun e => h ((congrArg regBits e).trans regBits_zero)
      simp [h, this, openCycle]
      rfl
  cases we <;> cases hw <;> cases lw <;> cases hp : g.pending <;> simp_all

theorem edge_cleanEdge (s : State) (e : EngineOut) (st : Option StoreOp) :
    edge s (cleanEdge s.current e) (performStore s.cfg s.mem st) = commit (retire { e.effects with store := st } s) := by
  rw [cleanEdge_eq]
  rfl

theorem edge_faultEdge (s : State) {code : BitVec 3} {c : Cause} (h : causeOfCode code = some c)
    (w a : Option Word) : edge s (faultEdge s.current code w a) s.mem = commit (takeFault c w a s) := by
  unfold faultEdge
  rw [h]
  rfl

/-! ### The resolver (R293) -/

theorem resolver_ea (c : Config) (m : Memory) (inp : ResolverIn) :
    (resolver c m inp).ea = effectiveAddress inp.base inp.imm16 := rfl

theorem resolver_alignFault (c : Config) (m : Memory) (inp : ResolverIn) :
    (resolver c m inp).alignFault = !inp.width.aligned (effectiveAddress inp.base inp.imm16) := by
  have := aligned_iff inp.width (inp.base + sext32 inp.imm16)
  simp only [resolver, effectiveAddress]
  cases h : inp.width.aligned (inp.base + sext32 inp.imm16) <;> simp_all

theorem resolver_loadData (c : Config) (m : Memory) (inp : ResolverIn) :
    (resolver c m inp).loadData =
      match inp.width with
      | .byte => loadedByte c m (effectiveAddress inp.base inp.imm16)
      | .half => loadedHalf c m (effectiveAddress inp.base inp.imm16)
      | .word => loadedWord c m (effectiveAddress inp.base inp.imm16) := by
  have h0 : ∀ a : Word, a + BitVec.ofNat 32 0 = a := fun a => by simp
  cases h : inp.width <;>
    simp only [resolver, h, lanesAt, Width.bytes, List.range, List.range.loop, List.map, h0] <;> rfl

theorem applyByteWrites_lanes (c : Config) (a : Word) (bs : List Byte) (off : Nat) (m : Memory) :
    applyByteWrites m
      (((((List.range' off bs.length).map (fun i =>
        ({ addr := a + BitVec.ofNat 32 i, place := resolve c (a + BitVec.ofNat 32 i) } : Lane))).zip bs).filter
          (fun p => p.1.mapped)).map (fun p => (p.1.addr, p.2))) =
      writeBytes c m (a + BitVec.ofNat 32 off) bs := by
  induction bs generalizing off m with
  | nil => rfl
  | cons b bs ih =>
    simp only [List.length_cons, List.range'_succ, List.map_cons, List.zip_cons_cons, writeBytes]
    have hoff : a + BitVec.ofNat 32 off + 1#32 = a + BitVec.ofNat 32 (off + 1) := by
      rw [BitVec.add_assoc, BitVec.ofNat_add]
    rw [hoff, ← ih]
    cases h : mapped c (a + BitVec.ofNat 32 off) with
    | true =>
      rw [List.filter_cons_of_pos (by exact h)]
      simp only [List.map_cons, applyByteWrites, setByte, h, if_true]
    | false =>
      rw [List.filter_cons_of_neg (by simp only [Lane.mapped, Bool.not_eq_true]; exact h)]
      simp only [setByte, h]
      rfl

theorem resolver_byteWrites (c : Config) (m : Memory) {inp : ResolverIn} (h : inp.isStore = true) :
    applyByteWrites m (resolver c m inp).byteWrites =
      memWrite c m (effectiveAddress inp.base inp.imm16) inp.width.bytes inp.storeData := by
  unfold resolver
  simp only [h, if_true]
  unfold memWrite effectiveAddress
  have := applyByteWrites_lanes c (inp.base + sext32 inp.imm16) (leBytes inp.width.bytes inp.storeData) 0 m
  rw [leBytes_length] at this
  simpa [lanesAt, List.range_eq_range'] using this

theorem resolver_lanes_mapped (c : Config) (m : Memory) {inp : ResolverIn} (h : inp.width = .word) :
    (resolver c m inp).lanes.all Lane.mapped = true ↔
      ∀ k < 4, mapped c (effectiveAddress inp.base inp.imm16 + BitVec.ofNat 32 k) = true := by
  simp only [resolver, h, lanesAt, List.all_map, Width.bytes, List.all_eq_true, List.mem_range]
  exact Iff.rfl

end Sys2Proof.Machine
end

