-- ==== Sys2Proof/Laws/Host.lean ====
section
/-! SUPPORT. What the host's operations do: a bounded run is a run of steps, a load keeps memory canonical. -/

namespace Sys2Proof.Machine

theorem advance_step (s : State) : step s = .next (advance s) := by
  obtain ⟨t, ht, -⟩ := step_shape s
  simp [advance, ht]

theorem hostStep_stopped {s : State} (h : s.current.run = false) (n : Nat) : hostStep n s = (0, s) := by
  cases n <;> simp [hostStep, h]

theorem hostStep_succ {s : State} (h : s.current.run = true) (n : Nat) :
    hostStep (n + 1) s = ((hostStep n (advance s)).1 + 1, (hostStep n (advance s)).2) := by
  simp [hostStep, h]

/-- What every step keeps, a bounded run keeps. -/
theorem hostStep_keeps {P : State → Prop} (hP : ∀ s t, step s = .next t → P s → P t) (n : Nat) {s : State} (h : P s) :
    P (hostStep n s).2 := by
  induction n generalizing s with
  | zero => exact h
  | succ n ih =>
    cases hr : s.current.run with
    | false => rw [hostStep_stopped hr]; exact h
    | true => rw [hostStep_succ hr]; exact ih (hP _ _ (advance_step s) h)

theorem writeWords_wf {c : Config} {m : Memory} (h : Memory.wf m) (a : Word) (ws : List Word) :
    Memory.wf (writeWords c m a ws) := by
  induction ws generalizing m a with
  | nil => exact h
  | cons w ws ih => exact ih (memWrite_wf h _ _ _) _

theorem writeWords_inRegions {c : Config} {m : Memory} (h : Memory.inRegions c m) (a : Word) (ws : List Word) :
    Memory.inRegions c (writeWords c m a ws) := by
  induction ws generalizing m a with
  | nil => exact h
  | cons w ws ih => exact ih (memWrite_inRegions h _ _ _) _

theorem read_writeWords_unmapped {c : Config} {m : Memory} (hm : Memory.wf m) (a d : Word) (ws : List Word)
    (h : mapped c d = false) : Memory.read (writeWords c m a ws) d.toNat = Memory.read m d.toNat := by
  induction ws generalizing m a with
  | nil => rfl
  | cons w ws ih => rw [writeWords, ih (memWrite_wf hm _ _ _), memWrite, read_writeBytes_unmapped hm _ _ _ h]

/-- What a load changes, byte by byte: the byte at offset `b - a` of the list of words where it is mapped and inside the
list, the old byte elsewhere (R271). -/
theorem byteAt_writeWords {c : Config} {m : Memory} (hm : Memory.wf m) (a b : Word) (ws : List Word)
    (hlen : 4 * ws.length ≤ 2 ^ 32) :
    byteAt c (writeWords c m a ws) b =
      if mapped c b = true ∧ (b - a).toNat < 4 * ws.length then
        byteOf (ws.getD ((b - a).toNat / 4) 0#32) ((b - a).toNat % 4)
      else byteAt c m b := by
  induction ws generalizing m a with
  | nil => simp [writeWords]
  | cons w ws ih =>
    simp only [List.length_cons] at hlen ⊢
    rw [writeWords, ih (memWrite_wf hm _ _ _) (a + 4#32) (by omega), byteAt_memWrite hm _ _ _ (by decide)]
    by_cases hb : mapped c b = true
    · simp only [hb, true_and, if_true]
      by_cases hd : (b - a).toNat < 4
      · have h4 : (b - (a + 4#32)).toNat = (b - a).toNat + 2 ^ 32 - 4 := by bv_omega
        rw [if_neg (by omega), if_pos hd, if_pos (by omega), Nat.div_eq_of_lt hd, Nat.mod_eq_of_lt hd]
        rfl
      · have h4 : (b - (a + 4#32)).toNat = (b - a).toNat - 4 := by bv_omega
        have hq : (b - a).toNat / 4 = ((b - a).toNat - 4) / 4 + 1 := by omega
        have hr : ((b - a).toNat - 4) % 4 = (b - a).toNat % 4 := by omega
        rw [h4, if_neg hd, hr, hq, List.getD_cons_succ]
        by_cases hl : (b - a).toNat - 4 < 4 * ws.length
        · rw [if_pos hl, if_pos (by omega)]
        · rw [if_neg hl, if_neg (by omega)]
    · simp [hb, byteAt]

/-- Byte `k` of word `j` of a load stands at offset `4 * j + k`, where that is mapped. -/
theorem byteAt_writeWords_add {c : Config} {m : Memory} (hm : Memory.wf m) (a : Word) (ws : List Word)
    (hlen : 4 * ws.length ≤ 2 ^ 32) {j k : Nat} (hj : j < ws.length) (hk : k < 4)
    (hmap : mapped c (a + BitVec.ofNat 32 (4 * j + k)) = true) :
    byteAt c (writeWords c m a ws) (a + BitVec.ofNat 32 (4 * j + k)) = byteOf ws[j] k := by
  have hd : (a + BitVec.ofNat 32 (4 * j + k) - a).toNat = 4 * j + k := by
    rw [BitVec.add_comm, BitVec.add_sub_cancel, BitVec.toNat_ofNat]
    omega
  rw [byteAt_writeWords hm _ _ _ hlen, hd, if_pos ⟨hmap, by omega⟩, show (4 * j + k) / 4 = j by omega,
    show (4 * j + k) % 4 = k by omega]
  simp [hj]

end Sys2Proof.Machine
end

