-- ==== Sys2Proof/Laws/PerInstr.lean ====
section
/-! SUPPORT. The family `TableRow`: the word the encoder gives an instruction agrees with the instruction's row of
spec/opcode_table.json, its `match` under its `mask`. One lemma per constructor. -/

namespace Sys2Proof.Laws.TableRow

/-- The mask and the match of an instruction's row of spec/opcode_table.json. -/
def row : Instr → Word × Word
  | .sll _ _ _ => (0xFC00003F#32, 0x00000000#32)
  | .srl _ _ _ => (0xFC00003F#32, 0x00000002#32)
  | .sra _ _ _ => (0xFC00003F#32, 0x00000003#32)
  | .jr _ => (0xFC00003F#32, 0x00000008#32)
  | .jalr _ _ => (0xFC00003F#32, 0x00000009#32)
  | .mfhi _ => (0xFC00003F#32, 0x00000010#32)
  | .mthi _ => (0xFC00003F#32, 0x00000011#32)
  | .mflo _ => (0xFC00003F#32, 0x00000012#32)
  | .mtlo _ => (0xFC00003F#32, 0x00000013#32)
  | .mult _ _ => (0xFC00003F#32, 0x00000018#32)
  | .multu _ _ => (0xFC00003F#32, 0x00000019#32)
  | .div _ _ => (0xFC00003F#32, 0x0000001A#32)
  | .divu _ _ => (0xFC00003F#32, 0x0000001B#32)
  | .add _ _ _ => (0xFC00003F#32, 0x00000020#32)
  | .addu _ _ _ => (0xFC00003F#32, 0x00000021#32)
  | .sub _ _ _ => (0xFC00003F#32, 0x00000022#32)
  | .subu _ _ _ => (0xFC00003F#32, 0x00000023#32)
  | .and _ _ _ => (0xFC00003F#32, 0x00000024#32)
  | .or _ _ _ => (0xFC00003F#32, 0x00000025#32)
  | .xor _ _ _ => (0xFC00003F#32, 0x00000026#32)
  | .nor _ _ _ => (0xFC00003F#32, 0x00000027#32)
  | .slt _ _ _ => (0xFC00003F#32, 0x0000002A#32)
  | .j _ => (0xFC000000#32, 0x08000000#32)
  | .jal _ => (0xFC000000#32, 0x0C000000#32)
  | .beq _ _ _ => (0xFC000000#32, 0x10000000#32)
  | .bne _ _ _ => (0xFC000000#32, 0x14000000#32)
  | .blez _ _ => (0xFC000000#32, 0x18000000#32)
  | .bgtz _ _ => (0xFC000000#32, 0x1C000000#32)
  | .addi _ _ _ => (0xFC000000#32, 0x20000000#32)
  | .addiu _ _ _ => (0xFC000000#32, 0x24000000#32)
  | .slti _ _ _ => (0xFC000000#32, 0x28000000#32)
  | .andi _ _ _ => (0xFC000000#32, 0x30000000#32)
  | .ori _ _ _ => (0xFC000000#32, 0x34000000#32)
  | .xori _ _ _ => (0xFC000000#32, 0x38000000#32)
  | .lui _ _ => (0xFC000000#32, 0x3C000000#32)
  | .lb _ _ _ => (0xFC000000#32, 0x80000000#32)
  | .lh _ _ _ => (0xFC000000#32, 0x84000000#32)
  | .lw _ _ _ => (0xFC000000#32, 0x8C000000#32)
  | .sb _ _ _ => (0xFC000000#32, 0xA0000000#32)
  | .sh _ _ _ => (0xFC000000#32, 0xA4000000#32)
  | .sw _ _ _ => (0xFC000000#32, 0xAC000000#32)

/-- The encoded word matches the instruction's row of the table. -/
def Statement (i : Instr) : Prop := encode i &&& (row i).1 = (row i).2

theorem maskR (rs rt rd : Reg) (sh : BitVec 5) (f : BitVec 6) :
    encodeR rs rt rd sh f &&& 0xFC00003F#32 = encodeR 0 0 0 0#5 f := by
  refine (and_encodeR rs rt rd 0 0 0 sh 0#5 f 63#6).trans ?_
  have h : f &&& 63#6 = f := BitVec.and_allOnes
  simp only [regBits_zero, BitVec.and_zero, h]
  rfl

theorem maskI (op : BitVec 6) (rs rt : Reg) (imm : BitVec 16) :
    encodeI op rs rt imm &&& 0xFC000000#32 = encodeI op 0 0 0#16 := by
  refine (and_encodeI op 63#6 rs rt 0 0 imm 0#16).trans ?_
  have h : op &&& 63#6 = op := BitVec.and_allOnes
  simp only [regBits_zero, BitVec.and_zero, h]
  rfl

theorem maskJ (op : BitVec 6) (target : BitVec 26) :
    encodeJ op target &&& 0xFC000000#32 = encodeJ op 0#26 := by
  unfold encodeJ
  apply BitVec.eq_of_getLsbD_eq
  intro i hi
  simp only [BitVec.getLsbD_and, BitVec.getLsbD_append]
  interval_cases i <;> simp

theorem sll (rd : Reg) (rt : Reg) (shamt : Nat) : Statement (.sll rd rt shamt) := maskR _ _ _ _ _
theorem srl (rd : Reg) (rt : Reg) (shamt : Nat) : Statement (.srl rd rt shamt) := maskR _ _ _ _ _
theorem sra (rd : Reg) (rt : Reg) (shamt : Nat) : Statement (.sra rd rt shamt) := maskR _ _ _ _ _
theorem jr (rs : Reg) : Statement (.jr rs) := maskR _ _ _ _ _
theorem jalr (rd : Reg) (rs : Reg) : Statement (.jalr rd rs) := maskR _ _ _ _ _
theorem mfhi (rd : Reg) : Statement (.mfhi rd) := maskR _ _ _ _ _
theorem mthi (rs : Reg) : Statement (.mthi rs) := maskR _ _ _ _ _
theorem mflo (rd : Reg) : Statement (.mflo rd) := maskR _ _ _ _ _
theorem mtlo (rs : Reg) : Statement (.mtlo rs) := maskR _ _ _ _ _
theorem mult (rs : Reg) (rt : Reg) : Statement (.mult rs rt) := maskR _ _ _ _ _
theorem multu (rs : Reg) (rt : Reg) : Statement (.multu rs rt) := maskR _ _ _ _ _
theorem div (rs : Reg) (rt : Reg) : Statement (.div rs rt) := maskR _ _ _ _ _
theorem divu (rs : Reg) (rt : Reg) : Statement (.divu rs rt) := maskR _ _ _ _ _
theorem add (rd : Reg) (rs : Reg) (rt : Reg) : Statement (.add rd rs rt) := maskR _ _ _ _ _
theorem addu (rd : Reg) (rs : Reg) (rt : Reg) : Statement (.addu rd rs rt) := maskR _ _ _ _ _
theorem sub (rd : Reg) (rs : Reg) (rt : Reg) : Statement (.sub rd rs rt) := maskR _ _ _ _ _
theorem subu (rd : Reg) (rs : Reg) (rt : Reg) : Statement (.subu rd rs rt) := maskR _ _ _ _ _
theorem and (rd : Reg) (rs : Reg) (rt : Reg) : Statement (.and rd rs rt) := maskR _ _ _ _ _
theorem or (rd : Reg) (rs : Reg) (rt : Reg) : Statement (.or rd rs rt) := maskR _ _ _ _ _
theorem xor (rd : Reg) (rs : Reg) (rt : Reg) : Statement (.xor rd rs rt) := maskR _ _ _ _ _
theorem nor (rd : Reg) (rs : Reg) (rt : Reg) : Statement (.nor rd rs rt) := maskR _ _ _ _ _
theorem slt (rd : Reg) (rs : Reg) (rt : Reg) : Statement (.slt rd rs rt) := maskR _ _ _ _ _
theorem j (target : BitVec 26) : Statement (.j target) := maskJ _ _
theorem jal (target : BitVec 26) : Statement (.jal target) := maskJ _ _
theorem beq (rs : Reg) (rt : Reg) (off : BitVec 16) : Statement (.beq rs rt off) := maskI _ _ _ _
theorem bne (rs : Reg) (rt : Reg) (off : BitVec 16) : Statement (.bne rs rt off) := maskI _ _ _ _
theorem blez (rs : Reg) (off : BitVec 16) : Statement (.blez rs off) := maskI _ _ _ _
theorem bgtz (rs : Reg) (off : BitVec 16) : Statement (.bgtz rs off) := maskI _ _ _ _
theorem addi (rt : Reg) (rs : Reg) (imm : BitVec 16) : Statement (.addi rt rs imm) := maskI _ _ _ _
theorem addiu (rt : Reg) (rs : Reg) (imm : BitVec 16) : Statement (.addiu rt rs imm) := maskI _ _ _ _
theorem slti (rt : Reg) (rs : Reg) (imm : BitVec 16) : Statement (.slti rt rs imm) := maskI _ _ _ _
theorem andi (rt : Reg) (rs : Reg) (imm : BitVec 16) : Statement (.andi rt rs imm) := maskI _ _ _ _
theorem ori (rt : Reg) (rs : Reg) (imm : BitVec 16) : Statement (.ori rt rs imm) := maskI _ _ _ _
theorem xori (rt : Reg) (rs : Reg) (imm : BitVec 16) : Statement (.xori rt rs imm) := maskI _ _ _ _
theorem lui (rt : Reg) (imm : BitVec 16) : Statement (.lui rt imm) := maskI _ _ _ _
theorem lb (rt : Reg) (rs : Reg) (imm : BitVec 16) : Statement (.lb rt rs imm) := maskI _ _ _ _
theorem lh (rt : Reg) (rs : Reg) (imm : BitVec 16) : Statement (.lh rt rs imm) := maskI _ _ _ _
theorem lw (rt : Reg) (rs : Reg) (imm : BitVec 16) : Statement (.lw rt rs imm) := maskI _ _ _ _
theorem sb (rt : Reg) (rs : Reg) (imm : BitVec 16) : Statement (.sb rt rs imm) := maskI _ _ _ _
theorem sh (rt : Reg) (rs : Reg) (imm : BitVec 16) : Statement (.sh rt rs imm) := maskI _ _ _ _
theorem sw (rt : Reg) (rs : Reg) (imm : BitVec 16) : Statement (.sw rt rs imm) := maskI _ _ _ _

end Sys2Proof.Laws.TableRow
end

