-- ==== Sys2Proof/Machine/Asm.lean ====
section
/-! DEFINITION. The assembly spelling of the spec's listings (spec/30_encoding.md R100 to R103; D26): register
spellings, how an operand's value becomes a field, how an instruction is written, and the expansions of the
pseudo-instructions. No rule of the machine reads any of it. -/

namespace Sys2Proof.Machine

/-- The conventional names of `r0` to `r31` (R101). -/
def conventionalNames : List String :=
  ["zero", "at", "v0", "v1", "a0", "a1", "a2", "a3"] ++
  ["t0", "t1", "t2", "t3", "t4", "t5", "t6", "t7"] ++
  ["s0", "s1", "s2", "s3", "s4", "s5", "s6", "s7"] ++
  ["t8", "t9", "k0", "k1", "gp", "sp", "fp", "ra"]

/-- The spelling the spec's listings use (R100). -/
def regName (r : Reg) : String := "r" ++ toString r.val

/-- Every spelling of a register: `rN`, `$N`, and its conventional name (R101). -/
def regSpellings (r : Reg) : List String :=
  [regName r, "$" ++ toString r.val, conventionalNames.getD r.val ""]

/-- The register a spelling names (R101). -/
def regOfSpelling (name : String) : Option Reg :=
  (List.finRange 32).find? (fun r => (regSpellings r).contains name)

/-- The 16-bit field of a decimal or hexadecimal operand; a negative number is its two's-complement field (R102). -/
def immField (v : Int) : Option (BitVec 16) :=
  if -32768 ≤ v ∧ v ≤ 65535 then some (BitVec.ofInt 16 v) else none

/-- The 26-bit field of the absolute address of a j or jal at `pc`: bits 27:2, when bits 31:28 equal those of the delay
slot's address (R102). An address that is not a multiple of 4 has no field. -/
def jumpField (pc addr : Word) : Option (BitVec 26) :=
  if addr.extractLsb' 28 4 = (pc + 4#32).extractLsb' 28 4 ∧ addr.extractLsb' 0 2 = 0#2 then
    some (addr.extractLsb' 2 26)
  else none

/-- `op a, b, c` (R100). -/
def listing (op : String) (operands : List String) : String := op ++ " " ++ ", ".intercalate operands

/-- `op rt, imm(rs)` (R100). -/
def memListing (op : String) (rt rs : Reg) (imm : BitVec 16) : String :=
  listing op [regName rt, toString imm.toInt ++ "(" ++ regName rs ++ ")"]

/-- How the instruction at `pc` is written: destination first, sign-extended immediates as signed numbers, a branch
offset as the signed field, a jump as its absolute address (R100, R102). -/
def instrListing (pc : Word) : Instr → String
  | .sll rd rt shamt => listing "sll" [regName rd, regName rt, toString shamt]
  | .srl rd rt shamt => listing "srl" [regName rd, regName rt, toString shamt]
  | .sra rd rt shamt => listing "sra" [regName rd, regName rt, toString shamt]
  | .jr rs => listing "jr" [regName rs]
  | .jalr rd rs => listing "jalr" [regName rd, regName rs]
  | .mfhi rd => listing "mfhi" [regName rd]
  | .mthi rs => listing "mthi" [regName rs]
  | .mflo rd => listing "mflo" [regName rd]
  | .mtlo rs => listing "mtlo" [regName rs]
  | .mult rs rt => listing "mult" [regName rs, regName rt]
  | .multu rs rt => listing "multu" [regName rs, regName rt]
  | .div rs rt => listing "div" [regName rs, regName rt]
  | .divu rs rt => listing "divu" [regName rs, regName rt]
  | .add rd rs rt => listing "add" [regName rd, regName rs, regName rt]
  | .addu rd rs rt => listing "addu" [regName rd, regName rs, regName rt]
  | .sub rd rs rt => listing "sub" [regName rd, regName rs, regName rt]
  | .subu rd rs rt => listing "subu" [regName rd, regName rs, regName rt]
  | .and rd rs rt => listing "and" [regName rd, regName rs, regName rt]
  | .or rd rs rt => listing "or" [regName rd, regName rs, regName rt]
  | .xor rd rs rt => listing "xor" [regName rd, regName rs, regName rt]
  | .nor rd rs rt => listing "nor" [regName rd, regName rs, regName rt]
  | .slt rd rs rt => listing "slt" [regName rd, regName rs, regName rt]
  | .j target => listing "j" [toString (jumpTarget pc target).toNat]
  | .jal target => listing "jal" [toString (jumpTarget pc target).toNat]
  | .beq rs rt off => listing "beq" [regName rs, regName rt, toString off.toInt]
  | .bne rs rt off => listing "bne" [regName rs, regName rt, toString off.toInt]
  | .blez rs off => listing "blez" [regName rs, toString off.toInt]
  | .bgtz rs off => listing "bgtz" [regName rs, toString off.toInt]
  | .addi rt rs imm => listing "addi" [regName rt, regName rs, toString imm.toInt]
  | .addiu rt rs imm => listing "addiu" [regName rt, regName rs, toString imm.toInt]
  | .slti rt rs imm => listing "slti" [regName rt, regName rs, toString imm.toInt]
  | .andi rt rs imm => listing "andi" [regName rt, regName rs, toString imm.toNat]
  | .ori rt rs imm => listing "ori" [regName rt, regName rs, toString imm.toNat]
  | .xori rt rs imm => listing "xori" [regName rt, regName rs, toString imm.toNat]
  | .lui rt imm => listing "lui" [regName rt, toString imm.toNat]
  | .lb rt rs imm => memListing "lb" rt rs imm
  | .lh rt rs imm => memListing "lh" rt rs imm
  | .lw rt rs imm => memListing "lw" rt rs imm
  | .sb rt rs imm => memListing "sb" rt rs imm
  | .sh rt rs imm => memListing "sh" rt rs imm
  | .sw rt rs imm => memListing "sw" rt rs imm

/-- The pseudo-instructions of R103. -/
inductive Pseudo where
  | nop
  | move (rd rs : Reg)
  | li (rt : Reg) (imm : Word)
  | b (off : BitVec 16)
  | jalrRa (rs : Reg)
deriving DecidableEq, Repr

/-- Whether a word is in -32768..32767 (R103). -/
def fitsSigned16 (imm : Word) : Bool := decide (-32768 ≤ imm.toInt) && decide (imm.toInt ≤ 32767)

/-- The instructions a pseudo-instruction stands for (R103). -/
def Pseudo.expand : Pseudo → List Instr
  | .nop => [.sll 0 0 0]
  | .move rd rs => [.addu rd rs 0]
  | .li rt imm =>
    if fitsSigned16 imm then [.addiu rt 0 (imm.extractLsb' 0 16)]
    else [.lui rt (imm.extractLsb' 16 16), .ori rt rt (imm.extractLsb' 0 16)]
  | .b off => [.beq 0 0 off]
  | .jalrRa rs => [.jalr 31 rs]

end Sys2Proof.Machine
end

