-- ==== Sys2Proof/Tests/Slice0.lean ====
section
/-! SUPPORT. Tests: ill-formed terms refused; one word per instruction, written out from spec/30_encoding.md R81, R89 and
R91, decoded; one-cycle vectors of spec/95_test_vectors.md (their numbers are in the docstrings); and, for every statement
with hypotheses, concrete values that meet them. -/

namespace Sys2Proof.Tests

open Sys2Proof.Machine

/-! ### Helpers -/

/-- Write registers in both generations. -/
def withRegs (s : State) (l : List (Reg × Word)) : State := l.foldl (fun s p => s.writeRegister p.1 p.2) s

/-- Write words of memory. -/
def withWords (s : State) (l : List (Word × Word)) : State :=
  l.foldl (fun s p => { s with mem := memWrite s.cfg s.mem p.1 4 p.2 }) s

/-- Set the PC and the pending target in both generations. -/
def withPc (s : State) (pc : Word) (pending : Option Word) : State :=
  { s with current := { s.current with pc := pc, pending := pending }
           next := { s.next with pc := pc, pending := pending } }

/-- The reset state with the instruction `w` at the text base and some registers set. -/
def ready (w : Nat) (regs : List (Reg × Word)) : State := withRegs (State.reset.withFetchWord 32 w) regs

/-- The same, the instruction standing at `pc`. -/
def readyAt (pc : Word) (w : Nat) (regs : List (Reg × Word)) : State :=
  withRegs ((withPc State.reset pc none).withFetchWord 32 w) regs

/-- The same at the text base, with the word 0x12345678 at 0x10010000 and its address in `r1`. -/
def readyMem (w : Nat) (r2 : Word) : State :=
  withWords (ready w [(1, 0x10010000#32), (2, r2)]) [(0x10010000#32, 0x12345678#32)]

/-- The data word at 0x10010000. -/
def dataWord (s : State) : Word := memRead32 s.cfg s.mem 0x10010000#32

/-! ### Well-formedness: each check refuses an ill-formed term -/

theorem test_wf_sll : (Instr.sll 3 2 32).wf = false ∧ (Instr.sll 3 2 31).wf = true := by decide
theorem test_wf_srl : (Instr.srl 3 2 32).wf = false ∧ (Instr.srl 3 2 0).wf = true := by decide
theorem test_wf_sra : (Instr.sra 3 2 33).wf = false ∧ (Instr.sra 3 2 31).wf = true := by decide

/-! ### Decoding: opcode, rs, rt, rd, shamt, funct; or opcode, rs, rt, imm16; or opcode, target26 (R81) -/

theorem test_decode_sll : decodeInstr 0b000000_00000_00010_00011_11111_000000#32 = .ok (.sll 3 2 31) := by decide
theorem test_decode_srl : decodeInstr 0b000000_00000_00010_00011_11111_000010#32 = .ok (.srl 3 2 31) := by decide
theorem test_decode_sra : decodeInstr 0b000000_00000_00010_00011_11111_000011#32 = .ok (.sra 3 2 31) := by decide
theorem test_decode_jr : decodeInstr 0b000000_00001_00000_00000_00000_001000#32 = .ok (.jr 1) := by decide
theorem test_decode_jalr : decodeInstr 0b000000_00001_00000_00011_00000_001001#32 = .ok (.jalr 3 1) := by decide
theorem test_decode_mfhi : decodeInstr 0b000000_00000_00000_00011_00000_010000#32 = .ok (.mfhi 3) := by decide
theorem test_decode_mthi : decodeInstr 0b000000_00001_00000_00000_00000_010001#32 = .ok (.mthi 1) := by decide
theorem test_decode_mflo : decodeInstr 0b000000_00000_00000_00011_00000_010010#32 = .ok (.mflo 3) := by decide
theorem test_decode_mtlo : decodeInstr 0b000000_00001_00000_00000_00000_010011#32 = .ok (.mtlo 1) := by decide
theorem test_decode_mult : decodeInstr 0b000000_00001_00010_00000_00000_011000#32 = .ok (.mult 1 2) := by decide
theorem test_decode_multu : decodeInstr 0b000000_00001_00010_00000_00000_011001#32 = .ok (.multu 1 2) := by decide
theorem test_decode_div : decodeInstr 0b000000_00001_00010_00000_00000_011010#32 = .ok (.div 1 2) := by decide
theorem test_decode_divu : decodeInstr 0b000000_00001_00010_00000_00000_011011#32 = .ok (.divu 1 2) := by decide
theorem test_decode_add : decodeInstr 0b000000_00001_00010_00011_00000_100000#32 = .ok (.add 3 1 2) := by decide
theorem test_decode_addu : decodeInstr 0b000000_00001_00010_00011_00000_100001#32 = .ok (.addu 3 1 2) := by decide
theorem test_decode_sub : decodeInstr 0b000000_00001_00010_00011_00000_100010#32 = .ok (.sub 3 1 2) := by decide
theorem test_decode_subu : decodeInstr 0b000000_00001_00010_00011_00000_100011#32 = .ok (.subu 3 1 2) := by decide
theorem test_decode_and : decodeInstr 0b000000_00001_00010_00011_00000_100100#32 = .ok (.and 3 1 2) := by decide
theorem test_decode_or : decodeInstr 0b000000_00001_00010_00011_00000_100101#32 = .ok (.or 3 1 2) := by decide
theorem test_decode_xor : decodeInstr 0b000000_00001_00010_00011_00000_100110#32 = .ok (.xor 3 1 2) := by decide
theorem test_decode_nor : decodeInstr 0b000000_00001_00010_00011_00000_100111#32 = .ok (.nor 3 1 2) := by decide
theorem test_decode_slt : decodeInstr 0b000000_00001_00010_00011_00000_101010#32 = .ok (.slt 3 1 2) := by decide
theorem test_decode_j : decodeInstr 0b000010_10000000000000000001000001#32 = .ok (.j 0x2000041#26) := by decide
theorem test_decode_jal : decodeInstr 0b000011_10000000000000000001000001#32 = .ok (.jal 0x2000041#26) := by decide
theorem test_decode_beq : decodeInstr 0b000100_00001_00010_1000000000000101#32 = .ok (.beq 1 2 0x8005#16) := by decide
theorem test_decode_bne : decodeInstr 0b000101_00001_00010_1000000000000101#32 = .ok (.bne 1 2 0x8005#16) := by decide
theorem test_decode_blez : decodeInstr 0b000110_00001_00000_1000000000000101#32 = .ok (.blez 1 0x8005#16) := by decide
theorem test_decode_bgtz : decodeInstr 0b000111_00001_00000_1000000000000101#32 = .ok (.bgtz 1 0x8005#16) := by decide
theorem test_decode_addi : decodeInstr 0b001000_00001_00010_1000000000000101#32 = .ok (.addi 2 1 0x8005#16) := by decide
theorem test_decode_addiu : decodeInstr 0b001001_00001_00010_1000000000000101#32 = .ok (.addiu 2 1 0x8005#16) := by decide
theorem test_decode_slti : decodeInstr 0b001010_00001_00010_1000000000000101#32 = .ok (.slti 2 1 0x8005#16) := by decide
theorem test_decode_andi : decodeInstr 0b001100_00001_00010_1000000000000101#32 = .ok (.andi 2 1 0x8005#16) := by decide
theorem test_decode_ori : decodeInstr 0b001101_00001_00010_1000000000000101#32 = .ok (.ori 2 1 0x8005#16) := by decide
theorem test_decode_xori : decodeInstr 0b001110_00001_00010_1000000000000101#32 = .ok (.xori 2 1 0x8005#16) := by decide
theorem test_decode_lui : decodeInstr 0b001111_00000_00010_1000000000000101#32 = .ok (.lui 2 0x8005#16) := by decide
theorem test_decode_lb : decodeInstr 0b100000_00001_00010_1000000000000101#32 = .ok (.lb 2 1 0x8005#16) := by decide
theorem test_decode_lh : decodeInstr 0b100001_00001_00010_1000000000000101#32 = .ok (.lh 2 1 0x8005#16) := by decide
theorem test_decode_lw : decodeInstr 0b100011_00001_00010_1000000000000101#32 = .ok (.lw 2 1 0x8005#16) := by decide
theorem test_decode_sb : decodeInstr 0b101000_00001_00010_1000000000000101#32 = .ok (.sb 2 1 0x8005#16) := by decide
theorem test_decode_sh : decodeInstr 0b101001_00001_00010_1000000000000101#32 = .ok (.sh 2 1 0x8005#16) := by decide
theorem test_decode_sw : decodeInstr 0b101011_00001_00010_1000000000000101#32 = .ok (.sw 2 1 0x8005#16) := by decide

/-! ### One cycle -/

/-- Vector 40.1. -/
theorem test_add : (advance (ready 0x00221820 [(1, 0x00000005#32), (2, 0x0000000A#32)])).current.x 3 = 0x0000000F#32 := by decide

/-- Vector 40.2. -/
theorem test_add_overflow : let t := advance (ready 0x00221820 [(1, 0x7FFFFFFF#32), (2, 1#32), (3, 0x55#32)])
    t.current.faultCode = 2#3 ∧ t.current.run = false ∧ t.current.x 3 = 0x00000055#32 := by decide

/-- Vector 40.7. -/
theorem test_addu : (advance (ready 0x00221821 [(1, 0x7FFFFFFF#32), (2, 0x00000001#32)])).current.x 3 = 0x80000000#32 := by decide

/-- Vector 40.9. -/
theorem test_sub : (advance (ready 0x00221822 [(1, 0x00000005#32), (2, 0x0000000A#32)])).current.x 3 = 0xFFFFFFFB#32 := by decide

/-- Vector 40.11. -/
theorem test_sub_overflow : let t := advance (ready 0x00021822 [(2, 0x80000000#32)])
    t.current.faultCode = 2#3 ∧ t.current.run = false := by decide

/-- Vector 40.13. -/
theorem test_subu : (advance (ready 0x00221823 [(2, 0x00000001#32)])).current.x 3 = 0xFFFFFFFF#32 := by decide

/-- Vector 40.14. -/
theorem test_and : (advance (ready 0x00221824 [(1, 0xF0F0FFFF#32), (2, 0x0FF0F00F#32)])).current.x 3 = 0x00F0F00F#32 := by decide

/-- Vector 40.15. -/
theorem test_or : (advance (ready 0x00221825 [(1, 0xF0F00000#32), (2, 0x0000F00F#32)])).current.x 3 = 0xF0F0F00F#32 := by decide

/-- Vector 40.16. -/
theorem test_xor : (advance (ready 0x00221826 [(1, 0xFFFF0000#32), (2, 0xFF00FF00#32)])).current.x 3 = 0x00FFFF00#32 := by decide

/-- Vector 40.17. -/
theorem test_nor : (advance (ready 0x00221827 [(1, 0xF0F00000#32), (2, 0x0000F00F#32)])).current.x 3 = 0x0F0F0FF0#32 := by decide

/-- Vector 40.19. -/
theorem test_slt : (advance (ready 0x0022182A [(1, 0xFFFFFFFF#32), (2, 0x00000001#32)])).current.x 3 = 0x00000001#32 := by decide

/-- Vector 40.20, over an old value. -/
theorem test_slt_false : (advance (ready 0x0022182A [(1, 0x00000001#32), (2, 0xFFFFFFFF#32), (3, 0x00000007#32)])).current.x 3 = 0x00000000#32 := by decide

/-- Vector 40.24. -/
theorem test_sll : (advance (ready 0x00021FC0 [(2, 0x00000003#32)])).current.x 3 = 0x80000000#32 := by decide

/-- Vector 40.26. -/
theorem test_srl : (advance (ready 0x00021902 [(2, 0x80000010#32)])).current.x 3 = 0x08000001#32 := by decide

/-- Vector 40.28. -/
theorem test_sra : (advance (ready 0x00021903 [(2, 0x80000010#32)])).current.x 3 = 0xF8000001#32 := by decide

/-- Vector 41.1. -/
theorem test_mult : let t := advance (ready 0x00220018 [(1, 0xFFFFFFFF#32), (2, 0x00000002#32)])
    t.current.hi = 0xFFFFFFFF#32 ∧ t.current.lo = 0xFFFFFFFE#32 := by decide

/-- Vector 41.5. -/
theorem test_multu : let t := advance (ready 0x00220019 [(1, 0xFFFFFFFF#32), (2, 0x00000002#32)])
    t.current.hi = 0x00000001#32 ∧ t.current.lo = 0xFFFFFFFE#32 := by decide

/-- Vector 41.9. -/
theorem test_div : let t := advance (ready 0x0022001A [(1, 0xFFFFFFF9#32), (2, 0x00000002#32)])
    t.current.hi = 0xFFFFFFFF#32 ∧ t.current.lo = 0xFFFFFFFD#32 := by decide

/-- Vector 41.13. -/
theorem test_div_zero : let t := advance (((ready 0x0022001A [(1, 10#32)]).writeHi 0x11#32).writeLo 0x22#32)
    t.current.faultCode = 3#3 ∧ t.current.hi = 0x11#32 ∧ t.current.lo = 0x22#32 := by decide

/-- Vector 41.16. -/
theorem test_divu : let t := advance (ready 0x0022001B [(1, 0x80000000#32), (2, 0xFFFFFFFF#32)])
    t.current.hi = 0x80000000#32 ∧ t.current.lo = 0x00000000#32 := by decide

/-- Vector 41.18. -/
theorem test_mfhi : (advance (((ready 0x00002010 []).writeHi 1#32).writeLo 2#32)).current.x 4 = 1#32 := by decide

/-- Vector 41.19. -/
theorem test_mflo : (advance (((ready 0x00002012 []).writeHi 1#32).writeLo 0xCAFEF00D#32)).current.x 4 = 0xCAFEF00D#32 := by decide

/-- Vector 41.21. -/
theorem test_mthi : let t := advance ((ready 0x00C00011 [(6, 0xDEADBEEF#32)]).writeLo 7#32)
    t.current.hi = 0xDEADBEEF#32 ∧ t.current.lo = 7#32 := by decide

/-- Vector 41.22. -/
theorem test_mtlo : let t := advance ((ready 0x00C00013 [(6, 0x12345678#32)]).writeHi 7#32)
    t.current.hi = 7#32 ∧ t.current.lo = 0x12345678#32 := by decide

/-- Vector 42.2. -/
theorem test_addi : (advance (ready 0x2022FFFF [])).current.x 2 = 0xFFFFFFFF#32 := by decide

/-- Vector 42.3. -/
theorem test_addi_overflow : let t := advance (ready 0x20220001 [(1, 0x7FFFFFFF#32), (2, 0x77#32)])
    t.current.faultCode = 2#3 ∧ t.current.run = false ∧ t.current.x 2 = 0x00000077#32 := by decide

/-- Vector 42.6. -/
theorem test_addiu : (advance (ready 0x2422FFFF [])).current.x 2 = 0xFFFFFFFF#32 := by decide

/-- Vector 42.7. -/
theorem test_andi : (advance (ready 0x3022FFFF [(1, 0xFFFFFFFF#32)])).current.x 2 = 0x0000FFFF#32 := by decide

/-- Vector 42.9. -/
theorem test_ori : (advance (ready 0x34228000 [])).current.x 2 = 0x00008000#32 := by decide

/-- Vector 42.11. -/
theorem test_xori : (advance (ready 0x3822FFFF [(1, 0xAAAAAAAA#32)])).current.x 2 = 0xAAAA5555#32 := by decide

/-- Vector 42.12. -/
theorem test_slti : (advance (ready 0x2822FFFF [(1, 0x80000000#32)])).current.x 2 = 0x00000001#32 := by decide

/-- Vector 42.16. -/
theorem test_lui : (advance (ready 0x3C02FFFF [(2, 0x00001234#32)])).current.x 2 = 0xFFFF0000#32 := by decide

/-- Vector 43.1. -/
theorem test_lw : (advance (readyMem 0x8C220000 0#32)).current.x 2 = 0x12345678#32 := by decide

/-- Vector 43.3. -/
theorem test_lw_misaligned : let t := advance (readyMem 0x8C220002 0x99#32)
    t.current.faultCode = 4#3 ∧ t.current.run = false ∧ t.current.x 2 = 0x00000099#32 := by decide

/-- Vector 43.6. -/
theorem test_lh : (advance (readyMem 0x84220000 0#32)).current.x 2 = 0x00005678#32 := by decide

/-- Vector 43.7. -/
theorem test_lh_signed : (advance (withWords (readyMem 0x84220002 0#32) [(0x10010000#32, 0x80005678#32)])).current.x 2 = 0xFFFF8000#32 := by decide

/-- Vector 43.11. -/
theorem test_lb : (advance (readyMem 0x80220003 0#32)).current.x 2 = 0x00000012#32 := by decide

/-- Vector 43.12. -/
theorem test_lb_signed : (advance (withWords (readyMem 0x80220000 0#32) [(0x10010000#32, 0x876543F0#32)])).current.x 2 = 0xFFFFFFF0#32 := by decide

/-- Vector 43.22. -/
theorem test_sw : let t := advance (ready 0xAC22FFFC [(1, 0x10020000#32), (2, 0x0BADF00D#32)])
    memRead32 t.cfg t.mem 0x1001FFFC#32 = 0x0BADF00D#32 := by decide

/-- Vector 43.16. -/
theorem test_sw_unmapped : let s := ready 0xAC220000 [(1, 0x1000#32), (2, 0x12345678#32)]
    (advance s).mem = s.mem ∧ (advance s).current.run = true := by decide

/-- Vector 43.18. -/
theorem test_sh : dataWord (advance (readyMem 0xA4220000 0xFFFFBEEF#32)) = 0x1234BEEF#32 := by decide

/-- Vector 43.19: no byte changes. -/
theorem test_sh_misaligned : dataWord (advance (readyMem 0xA4220003 0x00000001#32)) = 0x12345678#32 := by decide

/-- Vector 43.20. -/
theorem test_sb : dataWord (advance (readyMem 0xA0220001 0xFFFFFFAB#32)) = 0x1234AB78#32 := by decide

/-- Vector 44.1. -/
theorem test_beq_taken : let t := advance (readyAt 0x00400000#32 0x10220002 [(1, 0x00000007#32), (2, 0x00000007#32)])
    t.current.pc = 0x00400004#32 ∧ t.current.pending = some 0x0040000C#32 := by decide

/-- Vector 44.3. -/
theorem test_beq_not_taken : let t := advance (readyAt 0x00400000#32 0x10220002 [(1, 0x00000007#32), (2, 0x00000008#32)])
    t.current.pc = 0x00400004#32 ∧ t.current.pending = some 0x00400008#32 := by decide

/-- Vector 44.7. -/
theorem test_bne : let t := advance (readyAt 0x0040000C#32 0x1422FFFD [(1, 0x00000003#32)])
    t.current.pc = 0x00400010#32 ∧ t.current.pending = some 0x00400004#32 := by decide

/-- Vector 44.9. -/
theorem test_blez : let t := advance (readyAt 0x00400000#32 0x18200004 [(1, 0xFFFFFFFF#32)])
    t.current.pc = 0x00400004#32 ∧ t.current.pending = some 0x00400014#32 := by decide

/-- Vector 44.10. -/
theorem test_blez_zero : let t := advance (readyAt 0x00400000#32 0x18200004 [])
    t.current.pc = 0x00400004#32 ∧ t.current.pending = some 0x00400014#32 := by decide

/-- Vector 44.12. -/
theorem test_bgtz : let t := advance (readyAt 0x00400008#32 0x1C20FFFE [(1, 0x00000001#32)])
    t.current.pc = 0x0040000C#32 ∧ t.current.pending = some 0x00400004#32 := by decide

/-- Vector 44.13. -/
theorem test_bgtz_min : let t := advance (readyAt 0x00400008#32 0x1C20FFFE [(1, 0x80000000#32)])
    t.current.pc = 0x0040000C#32 ∧ t.current.pending = some 0x00400010#32 := by decide

/-- Vector 44.15. -/
theorem test_j : let t := advance (readyAt 0x00400010#32 0x08100000 [])
    t.current.pc = 0x00400014#32 ∧ t.current.pending = some 0x00400000#32 := by decide

/-- Vector 44.16. -/
theorem test_jal : let t := advance (readyAt 0x00400000#32 0x0C100040 [])
    t.current.pc = 0x00400004#32 ∧ t.current.pending = some 0x00400100#32 ∧ t.current.x 31 = 0x00400008#32 := by decide

/-- Vector 44.18. -/
theorem test_jr : let t := advance (readyAt 0x00400020#32 0x03E00008 [(31, 0x00400010#32)])
    t.current.pc = 0x00400024#32 ∧ t.current.pending = some 0x00400010#32 := by decide

/-- Vector 44.20, where `rd` is `rs`. -/
theorem test_jalr : let t := advance (readyAt 0x00400020#32 0x00802009 [(4, 0x00400100#32)])
    t.current.pc = 0x00400024#32 ∧ t.current.pending = some 0x00400100#32 ∧ t.current.x 4 = 0x00400028#32 := by decide

/-- The second cycle of vector 44.1: the slot's PC is followed by the pending target. -/
theorem test_delay_slot_enters_target : let t := advance (withPc State.reset 0x00400004#32 (some 0x0040000C#32))
    t.current.pc = 0x0040000C#32 ∧ t.current.pending = none := by decide

/-- The second cycle of vector 44.23. -/
theorem test_branch_in_delay_slot : let t := advance ((withPc State.reset 0x00400004#32 (some 0x0040000C#32)).withFetchWord 32 0x08100000)
    t.current.fault = some { cause := .branchInDelaySlot, pc := 0x00400004#32, word := some 0x08100000#32, addr := none } ∧
    t.current.pc = 0x00400004#32 ∧ t.current.pending = some 0x0040000C#32 := by decide

/-- Vector 60.1. -/
theorem test_illegal : (advance (ready 0x0000000C [])).current.fault =
    some { cause := .illegalInstruction, pc := 0x00400000#32, word := some 0x0000000C#32, addr := none } := by decide

/-- Vector 60.8: misaligned comes before illegal. -/
theorem test_fetch_misaligned : (advance (readyAt 0x00400003#32 0x0000000C [])).current.fault =
    some { cause := .unalignedAccess, pc := 0x00400003#32, word := none, addr := some 0x00400003#32 } := by decide

/-- Vector 60.7. -/
theorem test_fetch_unmapped : (advance (readyAt 0x00410000#32 0 [])).current.fault =
    some { cause := .unmappedFetch, pc := 0x00410000#32, word := none, addr := some 0x00410000#32 } := by decide

/-- Vector 60.5: an ignored shamt of 5. -/
theorem test_ignored_field : decodeInstr 0x00430961#32 = .ok (.addu 1 2 3) := by decide

/-- The word of a table row through the table's numbering. -/
theorem test_table_word : decodeTableWord 32 0x00221820 = some (.add 3 1 2) ∧ decodeTableWord 32 0x0000000C = none := by decide

/-- Vector 40.31: with nothing loaded, the first step from reset runs word 0 as a no-op. -/
theorem test_nop_at_reset : advance State.reset =
    withPc { State.reset with current := { State.reset.current with ic := 1 }, next := { State.reset.next with ic := 1 } } 0x00400004#32 none := by decide

/-- Vector 70.5. -/
theorem test_stopped : hostStep 5 State.reset.stop = (0, State.reset.stop) := by decide

/-- Vector 70.6: load leaves a stopped machine stopped. -/
theorem test_load_stopped : (State.reset.stop.loadProgram [0x20010005#32]).current.run = false ∧ (State.reset.stop.loadProgram [0x20010005#32]).readMemoryByte 0x00400003#32 = 0x20#8 := by decide

/-- Vectors 70.2 and 70.3: the image is reloaded. -/
theorem test_host_reset : let s := (hostStep 1 (State.reset.loadProgram [0x20010005#32])).2
    s.current.x 1 = 5#32 ∧ s.hostReset.current.x 1 = 0#32 ∧ s.hostReset.readMemoryWord 0x00400000#32 = .ok 0x20010005#32 := by decide

/-- Example E2: little-endian bytes. -/
theorem test_read_memory : let s := withWords State.reset [(0x10010000#32, 0x12345678#32)]
    [0x10010000#32, 0x10010001#32, 0x10010002#32, 0x10010003#32].map s.readMemoryByte = [0x78#8, 0x56#8, 0x34#8, 0x12#8] := by decide

/-- Vector 43.20 through the block's signals. -/
theorem test_block_cycle : dataWord (blockCycle (readyMem 0xA0220001 0xFFFFFFAB#32)) = 0x1234AB78#32 := by decide

/-- R103: an immediate that fits takes addiu, another one lui and ori. -/
theorem test_expand_li : (Pseudo.li 2 0xFFFF8000#32).expand = [.addiu 2 0 0x8000#16] ∧
    (Pseudo.li 2 0x00008000#32).expand = [.lui 2 0#16, .ori 2 2 0x8000#16] := by decide

/-- R101 and R102: spellings of r29, the field of -1, the jump field of 0x00400100. -/
theorem test_spelling : regOfSpelling "sp" = some 29 ∧ immField (-1) = some 0xFFFF#16 ∧
    jumpField 0x00400000#32 0x00400100#32 = some 0x0100040#26 := by decide

/-! ### Values that meet the hypotheses of the statements -/

/-- Every instruction execution answers a next state, so such a premise is met by any instruction and state. -/
theorem exec_answers (i : Instr) (s : State) : ∃ t, exec i s = .next t := by
  rcases exec_shape i s with ⟨e, h, -⟩ | ⟨c, a, h, -⟩
  · exact ⟨_, h⟩
  · exact ⟨_, h⟩

/-- `add r3, r1, r2` at the text base, with operands that do not overflow. -/
def addState : State := ready 0x00221820 [(1, 5#32), (2, 10#32)]

/-- The reset state in a delay slot, `j 0x00400000` at its PC. -/
def slotState : State := (withPc State.reset 0x00400004#32 (some 0x0040000C#32)).withFetchWord 32 0x08100000

/-- A stopped machine: it has fetched an illegal word. -/
def haltedState : State := advance (ready 0x0000000C [])

theorem addState_inv : addState.Inv where
  committed := by decide
  memCanonical := by decide
  memMapped := by decide
  zeroCell := by decide
  faultStops := fun r h => by
    have : addState.current.fault = none := by decide
    rw [this] at h
    cases h

theorem slotState_inv : slotState.Inv where
  committed := by decide
  memCanonical := by decide
  memMapped := by decide
  zeroCell := by decide
  faultStops := fun r h => by
    have : slotState.current.fault = none := by decide
    rw [this] at h
    cases h

theorem witness_EncoderInvertsDecoder :
    formatOf 0x04#6 = .i ∧ formatOf 0x3F#6 = .i ∧ formatOf 0x01#6 = .i ∧ formatOf 0x02#6 = .j ∧ formatOf 0x03#6 = .j ∧
    (Instr.sra 31 31 31).wf = true ∧ (Instr.jal 0x3FFFFFF#26).wf = true := by decide

theorem witness_DecodeIsExact :
    (Instr.jr 31).wf = true ∧ decodeInstr 0x03FFFFC8#32 = .ok (.jr 31) ∧
    0x03FFFFC8#32 &&& (Instr.jr 31).usedBits = encode (.jr 31) ∧ decodeInstr 0x03E00009#32 ≠ .ok (.jr 31) := by decide

theorem witness_MemoryBytesDecode :
    decodeInstr 0x00021FC3#32 = .ok (.sra 3 2 31) ∧ (Instr.sra 3 2 31).wf = true ∧
    decodeBytes [0xC3#8, 0x1F#8, 0x02#8, 0x00#8, 0xAA#8] = .ok (.sra 3 2 31, [0xAA#8]) := by decide

/-- The last mapped word of the text region, and an exec that answers a next state. -/
theorem witness_StepRunsDecodedInstruction :
    let s := readyAt 0x0040FFFC#32 0x00221820 [(1, 5#32)]
    s.current.run = true ∧ s.current.pc.toNat % 4 = 0 ∧
    (∀ k < 4, mapped s.cfg (s.current.pc + BitVec.ofNat 32 k) = true) ∧
    decodeBytes [byteAt s.cfg s.mem s.current.pc, byteAt s.cfg s.mem (s.current.pc + 1#32),
      byteAt s.cfg s.mem (s.current.pc + 2#32), byteAt s.cfg s.mem (s.current.pc + 3#32)] = .ok (.add 3 1 2, []) ∧
    ∃ t, exec (.add 3 1 2) s = .next t :=
  ⟨by decide, by decide, by decide, by decide, exec_answers _ _⟩

theorem witness_StoppedMachineDoesNothing :
    haltedState.current.run = false ∧ addState.current.run = true := by decide

theorem witness_EveryCycleCountsOne :
    addState.current.run = true ∧ (∃ t, step addState = .next t) ∧ ∃ t, exec (.add 3 1 2) addState = .next t :=
  ⟨by decide, ⟨_, advance_step _⟩, exec_answers _ _⟩

theorem witness_ExecutorReadsOnlyCurrent : ∃ t, exec (.add 3 1 2) addState = .next t := exec_answers _ _

/-- In a delay slot and outside one, an instruction that does not stop the machine; outside one, also a transfer. -/
theorem witness_PcCommitRule :
    (slotState.current.run = true ∧ slotState.current.pending = some 0x0040000C#32 ∧
      ∃ t, exec (.addu 3 1 2) slotState = .next t ∧ t.next.run = true) ∧
    (addState.current.run = true ∧ addState.current.pending = none ∧
      (∃ t, exec (.add 3 1 2) addState = .next t ∧ t.next.run = true) ∧
      ∃ t, exec (.beq 1 2 0xFFFF#16) addState = .next t ∧ t.next.run = true) :=
  ⟨⟨by decide, by decide, _, rfl, by decide⟩, by decide, by decide, ⟨_, rfl, by decide⟩, _, rfl, by decide⟩

/-- Example E6: a taken beq, then the addi of its delay slot. -/
theorem witness_DelaySlotRunsBeforeTarget :
    let s := State.reset.loadProgram [0x10000002#32, 0x20010001#32]
    let t := advance s
    s.current.run = true ∧ s.current.pending = none ∧ fetch s = .ok 0x10000002#32 ∧
    decodeInstr 0x10000002#32 = .ok (.beq 0 0 2#16) ∧ (Instr.beq 0 0 2#16).isTransfer = true ∧ step s = .next t ∧
    fetch t = .ok 0x20010001#32 ∧ decodeInstr 0x20010001#32 = .ok (.addi 1 0 1#16) ∧
    step t = .next (advance t) ∧ (advance t).current.run = true :=
  ⟨by decide, by decide, by decide, by decide, by decide, advance_step _, by decide, by decide, advance_step _, by decide⟩

theorem witness_AlignedPcIsKept :
    (Instr.bgtz 1 0x8000#16).jumpsThroughRegister = false ∧ (∃ t, exec (.bgtz 1 0x8000#16) addState = .next t) ∧
    addState.current.pc.toNat % 4 = 0 ∧ (∀ a, addState.current.pending = some a → a.toNat % 4 = 0) :=
  ⟨by decide, exec_answers _ _, by decide, fun a h => by
    have : addState.current.pending = none := by decide
    rw [this] at h
    cases h⟩

theorem witness_FaultingCyclesArePrecise :
    let s := ready 0x0000000C []
    s.current.run = true ∧ step s = .next (advance s) ∧ (advance s).current.run = false :=
  ⟨by decide, advance_step _, by decide⟩

/-- Each clause: a PC of remainder 1 and 3, a fetch whose last two bytes alone are unmapped, an illegal word, a transfer in
a slot, a transfer outside one, another instruction in a slot. -/
theorem witness_FirstFaultInPhaseOrder :
    ((readyAt 0x00400001#32 0 []).current.pc.toNat % 4 ≠ 0 ∧ (readyAt 0x00400003#32 0 []).current.pc.toNat % 4 ≠ 0) ∧
    (let s := { State.reset with cfg := { regions := [⟨"text", 0x00400000#32, 0x00400001#32⟩], textBase := 0x00400000#32 } };
      s.current.run = true ∧ s.current.pc.toNat % 4 = 0 ∧ mapped s.cfg (s.current.pc + 1#32) = true ∧
      ∃ k < 4, mapped s.cfg (s.current.pc + BitVec.ofNat 32 k) = false) ∧
    (let s := ready 0x0000000C [];
      s.current.pc.toNat % 4 = 0 ∧ (∀ k < 4, mapped s.cfg (s.current.pc + BitVec.ofNat 32 k) = true) ∧
      decodeInstr (fetchedWord s) = .error (.illegalFunct 0x0C#6)) ∧
    ((∀ k < 4, mapped slotState.cfg (slotState.current.pc + BitVec.ofNat 32 k) = true) ∧
      decodeInstr (fetchedWord slotState) = .ok (.j 0x0100000#26) ∧ slotState.current.pending.isSome = true) ∧
    (decodeInstr (fetchedWord addState) = .ok (.add 3 1 2) ∧ (Instr.add 3 1 2).isTransfer = false ∧
      addState.current.pending = none) := by decide

/-- For each of add, sub and addi: the largest and smallest sums that fit, and the first on each side that do not. -/
theorem witness_OverflowIsExact :
    let fits := fun n : Int => -2 ^ 31 ≤ n ∧ n < 2 ^ 31
    let s := withRegs State.reset [(1, 0x7FFFFFFF#32), (2, 1#32), (3, 0x80000000#32), (4, 0xFFFFFFFF#32)]
    (fits ((s.x 1).toInt + (s.x 0).toInt) ∧ ¬ fits ((s.x 1).toInt + (s.x 2).toInt) ∧
      fits ((s.x 3).toInt + (s.x 0).toInt) ∧ ¬ fits ((s.x 3).toInt + (s.x 4).toInt)) ∧
    (fits ((s.x 1).toInt - (s.x 0).toInt) ∧ ¬ fits ((s.x 1).toInt - (s.x 4).toInt) ∧
      fits ((s.x 3).toInt - (s.x 0).toInt) ∧ ¬ fits ((s.x 3).toInt - (s.x 2).toInt)) ∧
    (fits ((s.x 1).toInt + (0#16).toInt) ∧ ¬ fits ((s.x 1).toInt + (1#16).toInt) ∧
      fits ((s.x 3).toInt + (0#16).toInt) ∧ ¬ fits ((s.x 3).toInt + (0xFFFF#16).toInt)) := by decide

theorem witness_OverflowPolicy :
    let s := withRegs State.reset [(1, 0x7FFFFFFF#32), (2, 1#32)]
    (Instr.add 3 1 2).Overflows s ∧ ∃ t r, exec (.add 3 1 2) s = .next t ∧ t.next.fault = some r ∧
      t.next.fault ≠ s.current.fault ∧ r.cause = .arithmeticOverflow :=
  ⟨by unfold Instr.Overflows; decide, _,
    { cause := .arithmeticOverflow, pc := 0x00400000#32, word := some 0#32, addr := none }, rfl, by decide, by decide, rfl⟩

theorem witness_DivisionByZeroHalts : addState.x 0 = 0#32 ∧ addState.x 7 = 0#32 := by decide

/-- A load and a store of each width, at the addresses on both sides of its alignment rule. -/
theorem witness_MisalignedAccessFaults :
    let s := withRegs State.reset [(1, 0x10010000#32)]
    (Instr.lb 2 1 3#16).access s = some (0x10010003#32, .byte) ∧
    (Instr.lh 2 1 1#16).access s = some (0x10010001#32, .half) ∧ (0x10010001#32).toNat % 2 ≠ 0 ∧
    (Instr.sh 2 1 2#16).access s = some (0x10010002#32, .half) ∧ (0x10010002#32).toNat % 2 = 0 ∧
    (Instr.lw 2 1 3#16).access s = some (0x10010003#32, .word) ∧ (0x10010003#32).toNat % 4 ≠ 0 ∧
    (Instr.sw 2 1 2#16).access s = some (0x10010002#32, .word) ∧ (0x10010002#32).toNat % 4 ≠ 0 ∧
    (Instr.lw 2 1 0xFFFC#16).access s = some (0x1000FFFC#32, .word) ∧ (0x1000FFFC#32).toNat % 4 = 0 := by decide

theorem witness_TransferInDelaySlotFaults :
    (Instr.j 0x0100000#26).isTransfer = true ∧ (Instr.blez 1 0#16).isTransfer = true ∧
    slotState.current.pending.isSome = true := by decide

theorem witness_RunFlagRules :
    haltedState.current.run = false ∧
    (∃ t, step (ready 0x0000000C []) = .next t ∧ t.current.fault ≠ (ready 0x0000000C []).current.fault) ∧
    (∃ t, exec (.add 3 1 2) addState = .next t ∧ t.next.run = true) :=
  ⟨by decide, ⟨_, advance_step _, by decide⟩, ⟨_, rfl, by decide⟩⟩

theorem witness_StepKeepsInvariant :
    (addState.Inv ∧ ∃ t, step addState = .next t) ∧ (slotState.Inv ∧ ∃ t, step slotState = .next t) :=
  ⟨⟨addState_inv, _, advance_step _⟩, slotState_inv, _, advance_step _⟩

theorem witness_HostOperationsKeepInvariant :
    addState.Inv ∧ ∃ t, addState.writeMemoryWord 0x10010000#32 7#32 = .next t :=
  ⟨addState_inv, _, rfl⟩

theorem witness_ParametersNeverChange :
    (∃ t, step addState = .next t) ∧ ∃ u, addState.writeMemoryWord 0x1001FFFC#32 7#32 = .next u :=
  ⟨⟨_, advance_step _⟩, _, rfl⟩

theorem witness_DivideResults : addState.x 1 ≠ 0#32 := by decide

/-- The ordinary case and the quotient that wraps. -/
theorem witness_DivisionLaw :
    let s := withRegs State.reset [(1, 0x80000000#32), (2, 0xFFFFFFFF#32), (3, 3#32)]
    (s.x 2 ≠ 0#32 ∧ (s.x 1).toInt = -2 ^ 31 ∧ (s.x 2).toInt = -1 ∧ ∃ t, exec (.div 1 2) s = .next t) ∧
    (s.x 3 ≠ 0#32 ∧ ¬((s.x 1).toInt = -2 ^ 31 ∧ (s.x 3).toInt = -1) ∧ (∃ t, exec (.div 1 3) s = .next t) ∧
      ∃ t, exec (.divu 1 3) s = .next t) :=
  ⟨⟨by decide, by decide, by decide, exec_answers _ _⟩, by decide, by decide, exec_answers _ _, exec_answers _ _⟩

theorem witness_LoadResults :
    let s := withRegs State.reset [(1, 0x10010000#32)]
    (s.x 1 + (2#16).signExtend 32).toNat % 2 = 0 ∧ (s.x 1 + (0xFFFC#16).signExtend 32).toNat % 4 = 0 := by decide

theorem witness_StoreResults :
    Memory.wf addState.mem ∧ addState.mem ≠ [] ∧
    (addState.x 2 + (0xFFFE#16).signExtend 32).toNat % 2 = 0 ∧ (addState.x 2 + (2#16).signExtend 32).toNat % 4 = 0 := by
  decide

theorem witness_RegisterJumps : addState.current.pending = none := by decide

theorem witness_ConditionalBranches : addState.current.pending = none ∧ addState.x 1 ≠ addState.x 2 ∧
    addState.x 0 = addState.x 7 := by decide

theorem witness_AbsoluteJumps :
    (readyAt 0x0FFFFFFC#32 0 []).current.pending = none ∧ (readyAt 0x10000000#32 0 []).current.pending = none := by
  decide

theorem witness_OnlyDestinationRegisterChanges :
    (∃ t, exec (.add 3 1 2) addState = .next t) ∧ (Instr.add 3 1 2).dest ≠ some 4 ∧
    (∃ t, exec (.addi 0 1 5#16) addState = .next t) ∧ (Instr.addi 0 1 5#16).dest = some 0 :=
  ⟨exec_answers _ _, by decide, exec_answers _ _, by decide⟩

/-- A register form, and the two bytes beside a halfword store. -/
theorem witness_OnlyStoresWriteMemory :
    let s := readyMem 0xA4220000 7#32
    ((∃ t, exec (.add 3 1 2) s = .next t) ∧ (Instr.add 3 1 2).isStore = false) ∧
    (Memory.wf s.mem ∧ (∃ t, exec (.sh 2 1 0#16) s = .next t) ∧
      (Instr.sh 2 1 0#16).access s = some (0x10010000#32, .half) ∧
      ¬ InAccess 0x10010000#32 2 0x10010002#32 ∧ ¬ InAccess 0x10010000#32 2 0x1000FFFF#32) :=
  ⟨⟨exec_answers _ _, by decide⟩, by decide, exec_answers _ _, by decide, by unfold InAccess; decide,
    by unfold InAccess; decide⟩

theorem witness_HiLoAreReadAndWrittenOnlyByTheirInstructions :
    (∃ t, exec (.mthi 1) addState = .next t) ∧ (Instr.mthi 1).writesLo = false ∧ (Instr.mtlo 1).writesHi = false ∧
    (∀ rd, Instr.mult 1 2 ≠ .mfhi rd ∧ Instr.mult 1 2 ≠ .mflo rd) ∧
    (∃ t u, exec (.mult 1 2) addState = .next t ∧
      exec (.mult 1 2) { addState with current := { addState.current with hi := 1#32, lo := 2#32 } } = .next u ∧
      (Instr.mult 1 2).writesHi = true ∧ (Instr.mult 1 2).writesLo = true ∧ t.next.run = true) :=
  ⟨exec_answers _ _, by decide, by decide, by simp, _, _, rfl, rfl, by decide, by decide, by decide⟩

/-- The first and the last mapped word of the data region. -/
theorem witness_LittleEndian :
    Memory.wf addState.mem ∧ (0x10010000#32).toNat % 4 = 0 ∧ (0x1001FFFC#32).toNat % 4 = 0 ∧
    (∀ k < 4, mapped addState.cfg (0x10010000#32 + BitVec.ofNat 32 k) = true) ∧
    (∀ k < 4, mapped addState.cfg (0x1001FFFC#32 + BitVec.ofNat 32 k) = true) ∧
    fetch addState = .ok 0x00221820#32 := by decide

theorem witness_MemReadFormula :
    mapped addState.cfg 0x1001FFFF#32 = true ∧ mapped addState.cfg 0x10020000#32 = false := by decide

/-- Mapped bytes, unmapped bytes, an address beside the access, an unmapped address. -/
theorem witness_MemWriteLaw :
    4 ∈ [1, 2, 4] ∧ Memory.wf addState.mem ∧ mapped addState.cfg (0x1001FFFE#32 + BitVec.ofNat 32 1) = true ∧
    (∀ k < 4, mapped addState.cfg (0x10020000#32 + BitVec.ofNat 32 k) = false) ∧
    (∀ k < 4, 0x10010004#32 ≠ 0x10010000#32 + BitVec.ofNat 32 k) ∧
    mapped addState.cfg (0x1001FFFE#32 + BitVec.ofNat 32 2) = false := by decide

theorem witness_UnmappedDataIsNoError :
    let s := withRegs State.reset [(1, 0x10020000#32)]
    (Instr.lw 2 1 0#16).access s = some (0x10020000#32, .word) ∧ (0x10020000#32).toNat % 4 = 0 ∧
    (∀ k < 4, mapped s.cfg (0x10020000#32 + BitVec.ofNat 32 k) = false) ∧
    (Instr.sb 2 0 0xFFFF#16).access s = some (0xFFFFFFFF#32, .byte) ∧
    (∀ k < 1, mapped s.cfg (0xFFFFFFFF#32 + BitVec.ofNat 32 k) = false) ∧
    (let u := readyAt 0x00410000#32 0 [];
      u.current.run = true ∧ u.current.pc.toNat % 4 = 0 ∧ mapped u.cfg u.current.pc = false) := by decide

theorem witness_HostWordRoundTrip :
    Memory.wf addState.mem ∧ (0x10010000#32).toNat % 4 = 0 ∧
    (∀ k < 4, mapped addState.cfg (0x10010000#32 + BitVec.ofNat 32 k) = true) ∧ (0x10010002#32).toNat % 4 ≠ 0 := by
  decide

/-- `sh r2, 6(r1)` at the text base, `r1` the text base: it stores into the upper half of the next word fetched. -/
theorem witness_StoreIsFetched :
    let s := ready 0xA4220006 [(1, 0x00400000#32), (2, 0x20030009#32)]
    Memory.wf s.mem ∧ s.current.run = true ∧ fetch s = .ok 0xA4220006#32 ∧
    decodeInstr 0xA4220006#32 = .ok (.sh 2 1 6#16) ∧ (s.x 1 + (6#16).signExtend 32).toNat % 2 = 0 ∧
    step s = .next (advance s) ∧ fetch (advance s) = .ok 0x00090000#32 :=
  ⟨by decide, by decide, by decide, by decide, by decide, advance_step _, by decide⟩

theorem witness_CanonicalMemoryIsUnique :
    Memory.wf addState.mem ∧ Memory.wf State.reset.mem ∧ ∀ a, Memory.read addState.mem a = Memory.read addState.mem a :=
  ⟨by decide, by decide, fun _ => rfl⟩

/-- A recorded program of one word: its last byte, the first byte after it, and the byte before it. -/
theorem witness_HostResetRestoresProgram :
    State.reset.image = [] ∧ (State.reset.loadProgram [0x20010005#32]).image = [0x20010005#32] ∧
    4 * [0x20010005#32].length ≤ 2 ^ 32 ∧
    mapped addState.cfg (addState.cfg.textBase + BitVec.ofNat 32 (4 * 0 + 3)) = true ∧
    4 * [0x20010005#32].length ≤ (0x00400004#32 - addState.cfg.textBase).toNat ∧
    4 * [0x20010005#32].length ≤ (0x003FFFFF#32 - addState.cfg.textBase).toNat := by decide

/-- A load of two words into text of six bytes: the last mapped byte, an unmapped byte of the list, the first word (aligned
and whole), and the first byte after the list. -/
theorem witness_LoadWritesProgram :
    let s : State := { addState with
      cfg := { regions := [⟨"text", 0x00400000#32, 0x00400005#32⟩], textBase := 0x00400000#32 } }
    let words : List Word := [0x20010005#32, 0x2021FFFF#32]
    Memory.wf s.mem ∧ 4 * words.length ≤ 2 ^ 32 ∧
    mapped s.cfg (s.cfg.textBase + BitVec.ofNat 32 (4 * 1 + 1)) = true ∧
    mapped s.cfg (s.cfg.textBase + BitVec.ofNat 32 (4 * 1 + 2)) = false ∧
    (s.cfg.textBase + BitVec.ofNat 32 (4 * 0)).toNat % 4 = 0 ∧
    (∀ k < 4, mapped s.cfg (s.cfg.textBase + BitVec.ofNat 32 (4 * 0) + BitVec.ofNat 32 k) = true) ∧
    4 * words.length ≤ (0x00400008#32 - s.cfg.textBase).toNat := by decide

theorem witness_HostRegisterWrites :
    (31 : Reg) ≠ 0 ∧ (30 : Reg) ≠ 31 ∧ (∃ t, exec (.add 3 1 2) (addState.writeRegister 31 7#32) = .next t) ∧
    (Instr.add 3 1 2).dest ≠ some 31 :=
  ⟨by decide, by decide, exec_answers _ _, by decide⟩

theorem witness_BoundedRunCounts : (hostStep 2 (ready 0x0000000C [])).1 < 2 := by decide

theorem witness_RunEndsInOneState : RunsToCompletion (ready 0x0000000C []) haltedState := ⟨1, by decide, by decide⟩

end Sys2Proof.Tests
end

section
/-! The commit of a cycle and the run flag (spec/10_state.md R31, R37, R43): what a RUNNING step commits, and that the
executor's answer is a function of the current generation. -/

namespace Sys2Proof.Machine

/-! ### What a RUNNING step commits -/

/-- `StepShape` with the phase that raised a fault left out: the commit is of a retired instruction or of a fault. -/
theorem step_commits {s t : State} (hr : s.current.run = true) (hs : step s = .next t) :
    (∃ e, t = commit (retire e s)) ∨ ∃ c w a, t = commit (takeFault c w a s) := by
  cases stepShape_of_step hs with
  | stopped h _ => simp [hr] at h
  | fetchFault c _ _ ht => exact .inr ⟨c, none, some s.current.pc, ht⟩
  | illegal _ _ _ _ ht => exact .inr ⟨.illegalInstruction, some (fetchedWord s), none, ht⟩
  | retired _ e _ _ _ _ _ ht => exact .inl ⟨e, ht⟩
  | raised _ c a _ _ _ _ _ ht => exact .inr ⟨c, some (fetchedWord s), a, ht⟩

theorem step_ic_of_running {s t : State} (hr : s.current.run = true) (hs : step s = .next t) :
    t.current.ic = s.current.ic + 1 := by
  obtain ⟨e, rfl⟩ | ⟨c, w, a, rfl⟩ := step_commits hr hs
  · simp
  · simp

/-- Only a fault's commit changes the fault record, and it stops the machine (R31, R236). -/
theorem step_run_of_newFault {s t : State} (hs : step s = .next t) (hf : t.current.fault ≠ s.current.fault) :
    t.current.run = false := by
  cases hr : s.current.run with
  | false =>
    rw [step_stopped hr] at hs
    cases hs
    exact absurd rfl hf
  | true =>
    obtain ⟨e, rfl⟩ | ⟨c, w, a, rfl⟩ := step_commits hr hs
    · exact absurd (by simp) hf
    · simp

/-! ### What the executor reads and writes -/

theorem exec_current {i : Instr} {s t : State} (h : exec i s = .next t) : t.current = s.current := by
  obtain ⟨e, rfl, _⟩ | ⟨c, a, rfl, _⟩ := exec_cases h
  · simp
  · simp

/-- A retirement keeps the run flag and a fault clears it: no instruction sets it. -/
theorem run_of_exec_run {i : Instr} {s t : State} (h : exec i s = .next t) (ht : t.next.run = true) :
    s.current.run = true := by
  obtain ⟨e, rfl, _⟩ | ⟨c, a, rfl, _⟩ := exec_cases h
  · simpa using ht
  · simp at ht

/-- Every arm reads its operands from `current`, and `retire` and `takeFault` build `next` afresh from `current`, so in
each case the two sides compute to the same term. -/
theorem exec_with_next (i : Instr) (s : State) (g : Generation) : exec i { s with next := g } = exec i s := by
  cases i <;> rfl

/-! ### The obligations of the state -/

/-- Settles O7. -/
theorem stoppedMachineDoesNothing : Obligations.StoppedMachineDoesNothing := by
  refine ⟨fun s hr => ⟨step_stopped hr, hostStep_stopped hr⟩, fun s hr => ?_⟩
  exact ⟨advance s, advance_step s, step_ic_of_running hr (advance_step s)⟩

/-- Settles O10. -/
theorem executorReadsOnlyCurrent : Obligations.ExecutorReadsOnlyCurrent :=
  fun i s _ g h => ⟨exec_current h, (exec_with_next i s g).trans h⟩

/-- Settles O22. -/
theorem runFlagRules : Obligations.RunFlagRules :=
  ⟨fun _ => step_stopped, fun _ _ => step_run_of_newFault, fun _ _ _ => run_of_exec_run,
    fun _ => ⟨rfl, rfl⟩, fun _ => ⟨rfl, rfl⟩⟩

end Sys2Proof.Machine
end

section
/-! The memory primitives (spec/20_memory.md R54 to R57): byte order, the sum `MemRead` answers, what `MemWrite`
changes, and an access whose bytes are all unmapped. -/

namespace Sys2Proof.Machine

/-! ### Reading -/

/-- The first byte of an access is the one at its address. -/
theorem mapped_first {c : Config} {a : Word} {n : Nat} {b : Bool}
    (h : ∀ k < n, mapped c (a + BitVec.ofNat 32 k) = b) (hn : 0 < n) : mapped c a = b := by
  simpa using h 0 hn

theorem byteOf_leWord (b0 b1 b2 b3 : Byte) :
    byteOf (leWord b0 b1 b2 b3) 0 = b0 ∧ byteOf (leWord b0 b1 b2 b3) 1 = b1 ∧
    byteOf (leWord b0 b1 b2 b3) 2 = b2 ∧ byteOf (leWord b0 b1 b2 b3) 3 = b3 := by
  simp only [byteOf_eq, leWord_toNat, ← BitVec.toNat_inj, BitVec.toNat_ofNat]
  omega

/-- A word read has the byte at the address plus `k` as its byte `k` (R54). -/
theorem byteOf_memRead32 (c : Config) (m : Memory) (a : Word) {k : Nat} (hk : k < 4) :
    byteOf (memRead32 c m a) k = byteAt c m (a + BitVec.ofNat 32 k) := by
  obtain ⟨h0, h1, h2, h3⟩ :=
    byteOf_leWord (byteAt c m a) (byteAt c m (a + 1#32)) (byteAt c m (a + 2#32)) (byteAt c m (a + 3#32))
  match k, hk with
  | 0, _ => rw [BitVec.add_zero]; exact h0
  | 1, _ => exact h1
  | 2, _ => exact h2
  | 3, _ => exact h3

theorem memRead16_toNat (c : Config) (m : Memory) (a : Word) :
    (memRead16 c m a).toNat = (byteAt c m a).toNat + (byteAt c m (a + 1#32)).toNat * 2 ^ 8 := by
  rw [memRead16, leHalf_toNat]
  omega

theorem memRead32_toNat (c : Config) (m : Memory) (a : Word) :
    (memRead32 c m a).toNat = (byteAt c m a).toNat + (byteAt c m (a + 1#32)).toNat * 2 ^ 8 +
      (byteAt c m (a + 2#32)).toNat * 2 ^ 16 + (byteAt c m (a + 3#32)).toNat * 2 ^ 24 := by
  rw [memRead32, leWord_toNat]
  omega

theorem byteAt_mapped {c : Config} (m : Memory) {a : Word} (h : mapped c a = true) :
    byteAt c m a = Memory.read m a.toNat := if_pos h

/-! ### Writing -/

/-- A write whose bytes are all unmapped changes no memory (R56, R57). -/
theorem memWrite_unmapped {c : Config} {a : Word} {n : Nat}
    (h : ∀ k < n, mapped c (a + BitVec.ofNat 32 k) = false) (m : Memory) (v : Word) : memWrite c m a n v = m :=
  writeBytes_unmapped a _ (by rwa [leBytes_length])

/-- A byte outside a write reads as before (R56). -/
theorem byteAt_memWrite_outside {c : Config} {m : Memory} (hm : Memory.wf m) {a d : Word} {n : Nat} (hn : n ≤ 2 ^ 32)
    (hd : ∀ k < n, d ≠ a + BitVec.ofNat 32 k) (v : Word) : byteAt c (memWrite c m a n v) d = byteAt c m d := by
  have hout : ¬ (d - a).toNat < n := fun hlt => hd _ hlt <| by
    rw [BitVec.ofNat_toNat, BitVec.setWidth_eq, BitVec.add_comm, BitVec.sub_add_cancel]
  rw [byteAt_memWrite hm _ _ _ hn, if_neg hout]
  unfold byteAt
  split <;> rfl

/-! ### Loads and stores whose bytes are all unmapped (R57) -/

theorem loadedByte_unmapped {c : Config} {a : Word} (h : ∀ k < 1, mapped c (a + BitVec.ofNat 32 k) = false)
    (m : Memory) : loadedByte c m a = 0#32 := by
  rw [loadedByte, memRead8, byteAt_unmapped m (mapped_first h (by decide))]
  rfl

theorem loadedHalf_unmapped {c : Config} {a : Word} (h : ∀ k < 2, mapped c (a + BitVec.ofNat 32 k) = false)
    (m : Memory) : loadedHalf c m a = 0#32 := by
  rw [loadedHalf, memRead16, byteAt_unmapped m (mapped_first h (by decide)), byteAt_unmapped m (h 1 (by decide))]
  rfl

theorem loadedWord_unmapped {c : Config} {a : Word} (h : ∀ k < 4, mapped c (a + BitVec.ofNat 32 k) = false)
    (m : Memory) : loadedWord c m a = 0#32 := by
  rw [loadedWord, memRead32, byteAt_unmapped m (mapped_first h (by decide)), byteAt_unmapped m (h 1 (by decide)),
    byteAt_unmapped m (h 2 (by decide)), byteAt_unmapped m (h 3 (by decide))]
  rfl

/-- What an access to no mapped byte leaves: no fault, the memory as it was, and zero in the destination, if there is
one. -/
def AccessedNothing (dest : Option Reg) (s t : State) : Prop :=
  t.next.run = s.current.run ∧ t.next.fault = s.current.fault ∧ t.mem = s.mem ∧
  ∀ rt, dest = some rt → rt ≠ 0 → t.next.x rt = 0#32

theorem load_zero {w : Width} {rs : Reg} {imm : BitVec 16} {s : State} {read : Config → Memory → Word → Word}
    (ha : w.aligned (effectiveAddress (s.x rs) imm) = true)
    (hz : read s.cfg s.mem (effectiveAddress (s.x rs) imm) = 0#32) (rt : Reg) :
    ∃ t, load w rt rs imm read s = .next t ∧ AccessedNothing (some rt) s t := by
  refine ⟨_, load_next ha rt read, by simp, by simp, rfl, ?_⟩
  rintro _ ⟨⟩ h0
  rw [hz, retire_regWritten rfl s rt, if_pos ⟨rfl, h0⟩]

theorem store_unmapped {w : Width} {rs : Reg} {imm : BitVec 16} {s : State}
    (ha : w.aligned (effectiveAddress (s.x rs) imm) = true)
    (hu : ∀ k < w.bytes, mapped s.cfg (effectiveAddress (s.x rs) imm + BitVec.ofNat 32 k) = false) (rt : Reg) :
    ∃ t, store w rt rs imm s = .next t ∧ AccessedNothing none s t :=
  ⟨_, store_next ha rt, by simp, by simp, memWrite_unmapped hu _ _, by simp⟩

theorem exec_access_unmapped {i : Instr} {s : State} {ea : Word} {w : Width} (h : i.access s = some (ea, w))
    (ha : w.aligned ea = true) (hu : ∀ k < w.bytes, mapped s.cfg (ea + BitVec.ofNat 32 k) = false) :
    ∃ t, exec i s = .next t ∧ AccessedNothing i.dest s t := by
  cases i with
  | lb rt rs imm => cases h; exact load_zero ha (loadedByte_unmapped hu _) rt
  | lh rt rs imm => cases h; exact load_zero ha (loadedHalf_unmapped hu _) rt
  | lw rt rs imm => cases h; exact load_zero ha (loadedWord_unmapped hu _) rt
  | sb rt rs imm => cases h; exact store_unmapped ha hu rt
  | sh rt rs imm => cases h; exact store_unmapped ha hu rt
  | sw rt rs imm => cases h; exact store_unmapped ha hu rt
  | _ => cases h

/-- The fetch at an aligned PC whose own byte is unmapped (R62). -/
theorem fetch_unmapped {s : State} (ha : s.current.pc.toNat % 4 = 0) (hm : mapped s.cfg s.current.pc = false) :
    fetch s = .error .unmappedFetch := by
  cases fetch_shape s with
  | misaligned _ hn => exact absurd ha ((aligned_false_iff .word _).mp hn)
  | unmapped hf => exact hf
  | word _ _ hall =>
    have hfirst := mapped_first hall (by decide)
    rw [hm] at hfirst
    cases hfirst

/-! ### The obligations of memory -/

/-- Settles O44: the data clauses from `byteAt_memWrite_add`, the fetch from `byteOf_memRead32`. -/
theorem littleEndian : Obligations.LittleEndian := by
  refine ⟨fun c m a v hm _ hmap k hk => ?_, fun c m a hm _ hmap => ?_, fun s w hf k hk => ?_⟩
  · rw [byteAt_memWrite_add hm a v le_rfl hk (hmap k hk), byteOf_eq]
  · have hb : (List.range 4).map
        (fun k => byteAt c (memWrite c m a 4 0x12345678#32) (a + BitVec.ofNat 32 k)) = leBytes 4 0x12345678#32 :=
      List.map_congr_left fun k hk =>
        have hk := List.mem_range.mp hk
        byteAt_memWrite_add hm a _ le_rfl hk (hmap k hk)
    rw [hb]
    decide
  · rw [fetch_eq_fetchedWord hf, ← byteOf_eq, fetchedWord, byteOf_memRead32 _ _ _ hk]

/-- Settles O45, from the value of each concatenation of bytes. -/
theorem memReadFormula : Obligations.MemReadFormula := by
  intro c m a
  simp only [BitVec.add_zero]
  exact ⟨rfl, memRead16_toNat c m a, memRead32_toNat c m a, byteAt_mapped m, byteAt_unmapped m⟩

/-- Settles O46, one law of `memWrite` per clause. -/
theorem memWriteLaw : Obligations.MemWriteLaw := by
  intro c m a v n hn hm
  have hn4 : n ≤ 4 := by
    simp only [List.mem_cons, List.not_mem_nil, or_false] at hn
    omega
  refine ⟨fun k hk hmap => ?_, fun hu => memWrite_unmapped hu m v,
    fun d hd => byteAt_memWrite_outside hm (by omega) hd v, fun d hd => read_writeBytes_unmapped hm a d _ hd⟩
  rw [byteAt_memWrite_add hm a v hn4 hk hmap, byteOf_eq]

/-- Settles O47, by `exec_access_unmapped` for the data and `fetch_unmapped` for the fetch. -/
theorem unmappedDataIsNoError : Obligations.UnmappedDataIsNoError := by
  refine ⟨fun i s ea w h ha hu => exec_access_unmapped h ((aligned_iff w ea).mpr ha) hu, fun s hr ha hm => ?_⟩
  exact ⟨_, step_fetchFault hr (fetch_unmapped ha hm), rfl, rfl⟩

end Sys2Proof.Machine
end

section
/-! The encoder and the decoder invert each other (spec/30_encoding.md R96), on the fields of a word and on the
instructions of the table. -/

namespace Sys2Proof

/-! ### The word of a decoded word's fields -/

theorem formatOf_eq_r {op : BitVec 6} : formatOf op = .r ↔ op = 0#6 := by
  unfold formatOf
  split_ifs with hr
  · simp [hr]
  · simp [hr]
  · simp [hr]

theorem encode_decodeWord (w : Word) : (decodeWord w).encode = w := by
  unfold decodeWord
  cases h : formatOf (opcodeOf w) with
  | r => exact encodeR_fields (formatOf_eq_r.mp h)
  | i => exact encodeI_fields w
  | j => exact encodeJ_fields w

/-! ### The instruction of an encoded word, per format -/

theorem decodeInstr_encodeR (rs rt rd : Reg) (sh : BitVec 5) (t : RTag) :
    decodeInstr (encodeR rs rt rd sh t.funct) =
      .ok (t.build { rs := rs, rt := rt, rd := rd, shamt := sh, funct := t.funct }) := by
  apply decodeInstr_of_instr
  rw [decodeWord_encodeR, Decoded.instr, functTag_funct, Option.map_some]

theorem decodeInstr_encodeI (rs rt : Reg) (imm : BitVec 16) (t : ITag) :
    decodeInstr (encodeI t.opcode rs rt imm) =
      .ok (t.build { opcode := t.opcode, rs := rs, rt := rt, imm := imm }) := by
  apply decodeInstr_of_instr
  rw [decodeWord_encodeI (formatOf_iOpcode t), Decoded.instr, opcodeITag_opcode, Option.map_some]

theorem decodeInstr_encodeJ (target : BitVec 26) (t : JTag) :
    decodeInstr (encodeJ t.opcode target) = .ok (t.build { opcode := t.opcode, target := target }) := by
  apply decodeInstr_of_instr
  rw [decodeWord_encodeJ (formatOf_jOpcode t), Decoded.instr, opcodeJTag_opcode, Option.map_some]

/-- A shift amount is the one operand a field can be too narrow for: well-formedness says that it fits. In every other
case the built instruction computes to the one encoded. -/
theorem decodeInstr_encode {i : Instr} (h : i.wf = true) : decodeInstr (encode i) = .ok i := by
  cases i with
  | sll rd rt shamt | srl rd rt shamt | sra rd rt shamt =>
    have hfit : (BitVec.ofNat 5 shamt).toNat = shamt := Nat.mod_eq_of_lt (of_decide_eq_true h)
    refine (decodeInstr_encodeR ..).trans ?_
    simp only [RTag.build, hfit]
  | j _ | jal _ => exact decodeInstr_encodeJ ..
  | beq _ _ _ | bne _ _ _ | blez _ _ | bgtz _ _ | addi _ _ _ | addiu _ _ _ | slti _ _ _ | andi _ _ _ | ori _ _ _
  | xori _ _ _ | lui _ _ | lb _ _ _ | lh _ _ _ | lw _ _ _ | sb _ _ _ | sh _ _ _ | sw _ _ _ =>
    exact decodeInstr_encodeI ..
  | _ => exact decodeInstr_encodeR ..

/-! ### The obligation of the encoder -/

/-- Settles O2, one law of the encoder per clause. -/
theorem encoderInvertsDecoder : Obligations.EncoderInvertsDecoder :=
  ⟨fun rs rt rd sh f => ⟨rfl, decodeWord_encodeR rs rt rd sh f⟩,
    fun _ rs rt imm => ⟨rfl, fun h => decodeWord_encodeI h rs rt imm⟩,
    fun _ target => ⟨rfl, fun h => decodeWord_encodeJ h target⟩,
    encode_decodeWord, fun _ => decodeInstr_encode⟩

end Sys2Proof
end

section
/-! The cycle count, the store seen by the next fetch, and the host's operations (spec/70_reset_and_hazards.md R272,
R274, R284, R303, R305). -/

namespace Sys2Proof.Machine

/-! ### The cycle count (R305) -/

theorem exec_ic {i : Instr} {s t : State} (h : exec i s = .next t) : t.next.ic = s.current.ic + 1 := by
  obtain ⟨e, rfl, _⟩ | ⟨c, a, rfl, _⟩ := exec_cases h
  · simp
  · simp

/-! ### A store and the fetch of the next cycle (R303) -/

theorem mapped_of_fetch {s : State} {v : Word} (hf : fetch s = .ok v) :
    ∀ k < 4, mapped s.cfg (s.current.pc + BitVec.ofNat 32 k) = true := by
  cases fetch_shape s with
  | misaligned h => rw [hf] at h; cases h
  | unmapped h => rw [hf] at h; cases h
  | word _ _ hm => exact hm

theorem byteOf_fetch {s : State} {v : Word} (hf : fetch s = .ok v) {k : Nat} (hk : k < 4) :
    byteOf v k = byteAt s.cfg s.mem (s.current.pc + BitVec.ofNat 32 k) := by
  rw [fetch_eq_fetchedWord hf, fetchedWord, byteOf_memRead32 _ _ _ hk]

/-- The cycle of an aligned store commits its memory write. -/
theorem step_store {s t : State} {word : Word} {i : Instr} {w : Width} {rt rs : Reg} {imm : BitVec 16}
    (hr : s.current.run = true) (hf : fetch s = .ok word) (hd : decodeInstr word = .ok i)
    (hi : exec i s = store w rt rs imm s) (ha : w.aligned (effectiveAddress (s.x rs) imm) = true)
    (hs : step s = .next t) :
    t.cfg = s.cfg ∧ t.mem = memWrite s.cfg s.mem (effectiveAddress (s.x rs) imm) w.bytes (s.x rt) := by
  rw [step_exec hr hf hd, hi, store_next ha] at hs
  cases hs
  exact ⟨rfl, rfl⟩

/-- Byte `k` of the word fetched over the memory a write leaves: a fetch answers mapped bytes only, so each byte inside
the write is the written one. -/
theorem byteOf_fetch_memWrite {s t : State} {ea x v : Word} {n k : Nat} (hm : Memory.wf s.mem) (hn : n ≤ 2 ^ 32)
    (ht : t.cfg = s.cfg ∧ t.mem = memWrite s.cfg s.mem ea n x) (hv : fetch t = .ok v) (hk : k < 4) :
    byteOf v k = if (t.current.pc + BitVec.ofNat 32 k - ea).toNat < n
      then byteOf x (t.current.pc + BitVec.ofNat 32 k - ea).toNat
      else byteAt s.cfg s.mem (t.current.pc + BitVec.ofNat 32 k) := by
  obtain ⟨hcfg, hmem⟩ := ht
  have hmap := mapped_of_fetch hv k hk
  rw [hcfg] at hmap
  rw [byteOf_fetch hv hk, hcfg, hmem, byteAt_memWrite hm _ _ _ hn, if_pos hmap]

/-! ### The parameters and the recorded program (R274) -/

/-- The parameters and the recorded program of `t` are those of `s`. -/
def ParametersKept (s t : State) : Prop := t.cfg = s.cfg ∧ t.image = s.image

theorem step_parametersKept {s t : State} (hs : step s = .next t) : ParametersKept s t := by
  cases hr : s.current.run with
  | false =>
    rw [step_stopped hr] at hs
    cases hs
    exact ⟨rfl, rfl⟩
  | true =>
    obtain ⟨e, rfl⟩ | ⟨c, w, a, rfl⟩ := step_commits hr hs
    · exact ⟨rfl, rfl⟩
    · exact ⟨rfl, rfl⟩

theorem hostStep_parametersKept (n : Nat) (s : State) : ParametersKept s (hostStep n s).2 := by
  refine hostStep_keeps (P := ParametersKept s) (fun t u hs ⟨hcfg, himage⟩ => ?_) n ⟨rfl, rfl⟩
  obtain ⟨hcfg', himage'⟩ := step_parametersKept hs
  exact ⟨hcfg'.trans hcfg, himage'.trans himage⟩

/-- An accepted word write is the write of four bytes and nothing else (R285). -/
theorem writeMemoryWord_next {s u : State} {a v : Word} (h : s.writeMemoryWord a v = .next u) :
    u = { s with mem := memWrite s.cfg s.mem a 4 v } := by
  unfold State.writeMemoryWord at h
  split at h
  · cases h; rfl
  · cases h

/-! ### reset() (R272) -/

/-- `reset()` reads nothing of a state but its parameters and its recorded program. -/
theorem hostReset_of_parametersKept {s t : State} (h : ParametersKept s t) : t.hostReset = s.hostReset := by
  obtain ⟨hcfg, himage⟩ := h
  simp only [State.hostReset, State.initialise, State.loadProgram, hcfg, himage]

theorem hostReset_loadProgram (s : State) (words : List Word) :
    (s.loadProgram words).hostReset = s.initialise.loadProgram words := rfl

theorem readMemoryByte_initialise_loadProgram (s : State) (words : List Word) (a : Word) :
    (s.initialise.loadProgram words).readMemoryByte a =
      byteAt s.cfg (writeWords s.cfg [] s.cfg.textBase words) a := rfl

/-- A load over cleared memory leaves 0 outside its list. -/
theorem byteAt_writeWords_nil_outside {c : Config} {a b : Word} {ws : List Word} (hlen : 4 * ws.length ≤ 2 ^ 32)
    (hb : 4 * ws.length ≤ (b - a).toNat) : byteAt c (writeWords c [] a ws) b = 0#8 := by
  rw [byteAt_writeWords (by decide) _ _ _ hlen, if_neg (by omega)]
  simp [byteAt, Memory.read]

/-! ### Host register writes (R284) -/

/-- A general register the instruction does not name as its destination is kept by every execution, a faulting one
included (R23, R236). -/
theorem exec_x_of_dest_ne {k : Instr} {s t : State} {r : Reg} (h : exec k s = .next t) (hr : k.dest ≠ some r) :
    t.next.x r = s.current.x r := by
  obtain ⟨e, rfl, ha⟩ | ⟨c, a, rfl, _⟩ := exec_cases h
  · cases hg : e.gpr with
    | none => exact retire_regsKept hg s r
    | some p =>
      obtain ⟨d, v⟩ := p
      have hne : r ≠ d := fun hrd => hr (hrd ▸ ha.gpr d v hg)
      rw [retire_regWritten hg s r, if_neg (fun hand => hne hand.1)]
  · exact raised_regsKept (takeFault_raised ..) r

theorem Generation.x_setX_self (g : Generation) {i : Reg} (hi : i ≠ 0) (v : Word) : (g.setX i v).x i = v := by
  rw [Generation.x_setX, if_pos ⟨rfl, hi⟩]

theorem Generation.x_setX_of_ne (g : Generation) {i r : Reg} (hr : r ≠ i) (v : Word) : (g.setX i v).x r = g.x r := by
  rw [Generation.x_setX, if_neg (fun h => hr h.1)]

theorem Generation.sameControl_refl (g : Generation) : g.SameControl g := ⟨rfl, rfl, rfl, rfl, rfl⟩

theorem Generation.setX_sameControl (g : Generation) (i : Reg) (v : Word) : (g.setX i v).SameControl g := by
  simp [Generation.SameControl]

theorem writeRegister_onlyRegistersWritten (s : State) (i : Reg) (v : Word) :
    OnlyRegistersWritten s (s.writeRegister i v) :=
  ⟨Generation.setX_sameControl _ i v, Generation.setX_sameControl _ i v, rfl, rfl, rfl⟩

theorem writeHi_onlyRegistersWritten (s : State) (v : Word) : OnlyRegistersWritten s (s.writeHi v) :=
  ⟨Generation.sameControl_refl _, Generation.sameControl_refl _, rfl, rfl, rfl⟩

theorem writeLo_onlyRegistersWritten (s : State) (v : Word) : OnlyRegistersWritten s (s.writeLo v) :=
  ⟨Generation.sameControl_refl _, Generation.sameControl_refl _, rfl, rfl, rfl⟩

/-! ### The obligations of reset and hazards -/

/-- Settles O49: `step_store` for the store's cycle, `byteOf_fetch_memWrite` for the next fetch. -/
theorem storeIsFetched : Obligations.StoreIsFetched := by
  intro s t rt rs imm i n word v hm hr hf hd hi ea ha hs hv k hk a
  obtain ⟨w, hexec, rfl⟩ : ∃ w : Width, exec i s = store w rt rs imm s ∧ n = w.bytes := by
    obtain ⟨rfl, rfl⟩ | ⟨rfl, rfl⟩ | ⟨rfl, rfl⟩ := hi
    · exact ⟨.byte, rfl, rfl⟩
    · exact ⟨.half, rfl, rfl⟩
    · exact ⟨.word, rfl, rfl⟩
  have ht := step_store hr hf hd hexec ((aligned_iff w ea).mpr ha) hs
  have hn : w.bytes ≤ 2 ^ 32 := by cases w <;> decide
  rw [← byteOf_eq, ← byteOf_eq]
  exact byteOf_fetch_memWrite hm hn ht hv hk

/-- Settles O53, one law of the host's register writes per clause. -/
theorem hostRegisterWrites : Obligations.HostRegisterWrites := by
  refine ⟨fun s i v hi => ⟨Generation.x_setX_self _ hi v, Generation.x_setX_self _ hi v⟩, fun s v => rfl,
    fun s t i v k hi h hk => ?survives, fun s v => ⟨rfl, rfl, rfl, rfl⟩, fun s i v => ?register,
    fun s v => ⟨writeHi_onlyRegistersWritten s v, fun r => ⟨rfl, rfl⟩, rfl, rfl⟩,
    fun s v => ⟨writeLo_onlyRegistersWritten s v, fun r => ⟨rfl, rfl⟩, rfl, rfl⟩⟩
  case survives => exact (exec_x_of_dest_ne h hk).trans (Generation.x_setX_self _ hi v)
  case register =>
    exact ⟨writeRegister_onlyRegistersWritten s i v,
      fun r hr => ⟨Generation.x_setX_of_ne _ hr v, Generation.x_setX_of_ne _ hr v⟩,
      Generation.setX_hi _ i v, Generation.setX_hi _ i v, Generation.setX_lo _ i v, Generation.setX_lo _ i v⟩

/-- Settles O9. -/
theorem everyCycleCountsOne : Obligations.EveryCycleCountsOne :=
  ⟨fun _ _ => step_ic_of_running, fun _ _ _ => exec_ic⟩

/-- Settles O26. -/
theorem parametersNeverChange : Obligations.ParametersNeverChange := by
  refine ⟨fun _ _ => step_parametersKept, fun s => ⟨rfl, rfl, rfl, rfl, fun _ => ⟨rfl, rfl⟩⟩,
    fun s u i a v hu => ?host, fun s n => hostStep_parametersKept n s⟩
  case host =>
    obtain rfl | rfl | rfl | rfl | hw := hu
    · exact ⟨rfl, rfl⟩
    · exact ⟨rfl, rfl⟩
    · exact ⟨rfl, rfl⟩
    · exact ⟨rfl, rfl⟩
    · rw [writeMemoryWord_next hw]
      exact ⟨rfl, rfl⟩

/-- Settles O52: a run keeps what `reset()` reads, and the bytes are those of a load over cleared memory. -/
theorem hostResetRestoresProgram : Obligations.HostResetRestoresProgram := by
  refine ⟨fun s words n => ?run, fun s => ⟨rfl, rfl⟩, fun s himage => ?empty⟩
  case run =>
    have hu : (hostStep n (s.loadProgram words)).2.hostReset = s.initialise.loadProgram words :=
      (hostReset_of_parametersKept (hostStep_parametersKept n _)).trans (hostReset_loadProgram s words)
    refine ⟨hu, fun hlen => ⟨fun j hj k hk hmap => ?_, fun a ha => ?_⟩⟩
    · rw [hu, readMemoryByte_initialise_loadProgram, ← byteOf_eq]
      exact byteAt_writeWords_add (by decide) _ _ hlen hj hk hmap
    · rw [hu, readMemoryByte_initialise_loadProgram]
      exact byteAt_writeWords_nil_outside hlen ha
  case empty =>
    simp only [State.hostReset, State.initialise, State.loadProgram, writeWords, himage]

end Sys2Proof.Machine
end

section
/-! What the decoder answers, read back: a decoded word is the encoding of its fields under the opcode and funct of one
tag (spec/30_encoding.md R90, R91), and the fields the instruction ignores (R92) are the only ones its encoding
clears. -/

namespace Sys2Proof

/-! ### The inversion of the decoder -/

/-- How a word comes to denote an instruction: it holds the fields, under the opcode and funct of a tag, that the tag
builds the instruction from. -/
inductive Denotes (w : Word) (i : Instr) : Prop where
  | r (t : RTag) (f : RFields) (hw : w = encodeR f.rs f.rt f.rd f.shamt t.funct) (hi : i = t.build f)
  | i (t : ITag) (f : IFields) (hw : w = encodeI t.opcode f.rs f.rt f.imm) (hi : i = t.build f)
  | j (t : JTag) (f : JFields) (hw : w = encodeJ t.opcode f.target) (hi : i = t.build f)

/-- The inversion of `decodeInstr`. -/
theorem denotes_of_decodeInstr {w : Word} {i : Instr} (h : decodeInstr w = .ok i) : Denotes w i := by
  have hi := decodeInstr_eq_ok.mp h
  have hw := encode_decodeWord w
  cases hd : decodeWord w with
  | r f =>
    rw [hd] at hi hw
    obtain ⟨t, ht, rfl⟩ := Option.map_eq_some_iff.mp hi
    exact .r t f (by rw [← funct_of_functTag ht]; exact hw.symm) rfl
  | i f =>
    rw [hd] at hi hw
    obtain ⟨t, ht, rfl⟩ := Option.map_eq_some_iff.mp hi
    exact .i t f (by rw [← opcode_of_opcodeITag ht]; exact hw.symm) rfl
  | j f =>
    rw [hd] at hi hw
    obtain ⟨t, ht, rfl⟩ := Option.map_eq_some_iff.mp hi
    exact .j t f (by rw [← opcode_of_opcodeJTag ht]; exact hw.symm) rfl

theorem RTag.build_wf (t : RTag) (f : RFields) : (t.build f).wf = true := by
  cases t with
  | sll | srl | sra => exact decide_eq_true f.shamt.isLt
  | _ => rfl

theorem ITag.build_wf (t : ITag) (f : IFields) : (t.build f).wf = true := by cases t <;> rfl

theorem JTag.build_wf (t : JTag) (f : JFields) : (t.build f).wf = true := by cases t <;> rfl

theorem wf_of_decodeInstr {w : Word} {i : Instr} (h : decodeInstr w = .ok i) : i.wf = true := by
  cases denotes_of_decodeInstr h with
  | r t f _ hi => exact hi ▸ t.build_wf f
  | i t f _ hi => exact hi ▸ t.build_wf f
  | j t f _ hi => exact hi ▸ t.build_wf f

/-! ### The bits an instruction uses (R92) -/

theorem and_ones6 (b : BitVec 6) : b &&& 63#6 = b := BitVec.and_allOnes

/-- A register field's mask keeps the field or clears it. -/
theorem regOf_and_keep (k : Bool) (r : Reg) :
    regOf (regBits r &&& regBits (if k then 31 else 0)) = if k then r else 0 := by
  cases k
  · exact congrArg regOf BitVec.and_zero
  · exact congrArg regOf (BitVec.and_allOnes (x := regBits r))

/-- The R-format mask that keeps the opcode, the funct and the chosen fields. -/
theorem and_encodeR_keep (krs krt krd ksh : Bool) {m : Word}
    (hm : m = 63#6 ++ regBits (if krs then 31 else 0) ++ regBits (if krt then 31 else 0) ++
      regBits (if krd then 31 else 0) ++ (if ksh then 31#5 else 0#5) ++ 63#6)
    (rs rt rd : Reg) (sh : BitVec 5) (f : BitVec 6) :
    encodeR rs rt rd sh f &&& m =
      encodeR (if krs then rs else 0) (if krt then rt else 0) (if krd then rd else 0) (if ksh then sh else 0#5) f := by
  have hsh : sh &&& (if ksh then 31#5 else 0#5) = if ksh then sh else 0#5 := by
    cases ksh
    · exact BitVec.and_zero
    · exact BitVec.and_allOnes
  rw [hm, and_encodeR, regOf_and_keep, regOf_and_keep, regOf_and_keep, hsh, and_ones6]

/-- The I-format mask that keeps the opcode, the immediate and the chosen registers. -/
theorem and_encodeI_keep (krs krt : Bool) {m : Word}
    (hm : m = encodeI 63#6 (if krs then 31 else 0) (if krt then 31 else 0) 0xFFFF#16)
    (op : BitVec 6) (rs rt : Reg) (imm : BitVec 16) :
    encodeI op rs rt imm &&& m = encodeI op (if krs then rs else 0) (if krt then rt else 0) imm := by
  have himm : imm &&& 0xFFFF#16 = imm := BitVec.and_allOnes
  rw [hm, and_encodeI, regOf_and_keep, regOf_and_keep, and_ones6, himm]

theorem RTag.encode_build (t : RTag) (f : RFields) :
    encodeR f.rs f.rt f.rd f.shamt t.funct &&& (t.build f).usedBits = encode (t.build f) := by
  cases t with
  | sll | srl | sra =>
    refine (and_encodeR_keep false true true true rfl ..).trans ?_
    simp [RTag.build, encode]
  | jr | mthi | mtlo => exact and_encodeR_keep true false false false rfl ..
  | jalr => exact and_encodeR_keep true false true false rfl ..
  | mfhi | mflo => exact and_encodeR_keep false false true false rfl ..
  | mult | multu | div | divu => exact and_encodeR_keep true true false false rfl ..
  | _ => exact and_encodeR_keep true true true false rfl ..

theorem ITag.encode_build (t : ITag) (f : IFields) :
    encodeI t.opcode f.rs f.rt f.imm &&& (t.build f).usedBits = encode (t.build f) := by
  cases t with
  | blez | bgtz => exact and_encodeI_keep true false rfl ..
  | lui => exact and_encodeI_keep false true rfl ..
  | _ => exact and_encodeI_keep true true rfl ..

theorem JTag.encode_build (t : JTag) (f : JFields) :
    encodeJ t.opcode f.target &&& (t.build f).usedBits = encode (t.build f) := by
  cases t <;> exact BitVec.and_allOnes

/-- A decoded word, with the fields its instruction ignores cleared, is the instruction's encoding. -/
theorem encode_of_decodeInstr {w : Word} {i : Instr} (h : decodeInstr w = .ok i) : w &&& i.usedBits = encode i := by
  cases denotes_of_decodeInstr h with
  | r t f hw hi => rw [hw, hi, t.encode_build]
  | i t f hw hi => rw [hw, hi, t.encode_build]
  | j t f hw hi => rw [hw, hi, t.encode_build]

/-! ### A word that agrees with an encoding on the bits that count -/

theorem opcodeOf_and (w m : Word) : opcodeOf (w &&& m) = opcodeOf w &&& opcodeOf m := BitVec.extractLsb'_and

theorem functOf_and (w m : Word) : functOf (w &&& m) = functOf w &&& functOf m := BitVec.extractLsb'_and

/-- Every instruction uses its opcode. -/
theorem opcodeOf_and_usedBits (w : Word) (i : Instr) : opcodeOf (w &&& i.usedBits) = opcodeOf w := by
  have hm : opcodeOf i.usedBits = 63#6 := by
    cases i <;> simp only [Instr.usedBits] <;> decide
  rw [opcodeOf_and, hm, and_ones6]

/-- Every R-format instruction uses its funct. -/
theorem functOf_and_usedBits (w : Word) (t : RTag) (f : RFields) :
    functOf (w &&& (t.build f).usedBits) = functOf w := by
  have hm : functOf (t.build f).usedBits = 63#6 := by
    cases t <;> simp only [RTag.build, Instr.usedBits] <;> decide
  rw [functOf_and, hm, and_ones6]

/-- Which bits count depends on the tag alone. -/
theorem RTag.usedBits_build (t : RTag) (f g : RFields) : (t.build f).usedBits = (t.build g).usedBits := by
  cases t <;> rfl
theorem ITag.usedBits_build (t : ITag) (f g : IFields) : (t.build f).usedBits = (t.build g).usedBits := by
  cases t <;> rfl
theorem JTag.usedBits_build (t : JTag) (f g : JFields) : (t.build f).usedBits = (t.build g).usedBits := by
  cases t <;> rfl

/-- Two instructions whose used bits are the same and whose encodings a word agrees with are one. -/
theorem eq_of_encode {w : Word} {i k : Instr} (hi : i.wf = true) (hw : w &&& i.usedBits = encode i)
    (hk : decodeInstr w = .ok k) (hu : k.usedBits = i.usedBits) : k = i := by
  have he : encode k = encode i := by rw [← encode_of_decodeInstr hk, hu, hw]
  have hdec := decodeInstr_encode (wf_of_decodeInstr hk)
  rw [he, decodeInstr_encode hi] at hdec
  exact (Except.ok.inj hdec).symm

/-- The word has the tag's opcode and funct, because those bits count; so it decodes under the same tag, from its own
fields. -/
theorem decodeInstr_of_encode {w : Word} {i : Instr} (hi : i.wf = true) (hw : w &&& i.usedBits = encode i) :
    decodeInstr w = .ok i := by
  have hop := opcodeOf_and_usedBits w i
  rw [hw] at hop
  cases denotes_of_decodeInstr (decodeInstr_encode hi) with
  | r t f he hb =>
    subst hb
    have hf := functOf_and_usedBits w t f
    rw [hw, he, functOf_encodeR] at hf
    rw [he, opcodeOf_encodeR] at hop
    have hdec := decodeInstr_encodeR (rsOf w) (rtOf w) (rdOf w) (shamtOf w) t
    rw [hf, encodeR_fields hop.symm] at hdec
    rw [hdec, eq_of_encode hi hw hdec (t.usedBits_build _ _)]
  | i t f he hb =>
    subst hb
    rw [he, opcodeOf_encodeI] at hop
    have hdec := decodeInstr_encodeI (rsOf w) (rtOf w) (imm16Of w) t
    rw [hop, encodeI_fields] at hdec
    rw [hdec, eq_of_encode hi hw hdec (t.usedBits_build _ _)]
  | j t f he hb =>
    subst hb
    rw [he, opcodeOf_encodeJ] at hop
    have hdec := decodeInstr_encodeJ (target26Of w) t
    rw [hop, encodeJ_fields] at hdec
    rw [hdec, eq_of_encode hi hw hdec (t.usedBits_build _ _)]

/-- Four bytes are decoded as the word they put together; the bytes after them are left. -/
theorem decodeBytes_cons {b0 b1 b2 b3 : Byte} {i : Instr} (h : decodeInstr (leWord b0 b1 b2 b3) = .ok i)
    (rest : List Byte) : decodeBytes (b0 :: b1 :: b2 :: b3 :: rest) = .ok (i, rest) := by
  rw [decodeBytes, h]

/-! ### The legal words (R89, R91, R93) -/

theorem functTag_isSome (f : BitVec 6) : (functTag f).isSome = true ↔
    f.toNat ∈ [0x00, 0x02, 0x03, 0x08, 0x09, 0x10, 0x11, 0x12, 0x13, 0x18, 0x19, 0x1A, 0x1B,
      0x20, 0x21, 0x22, 0x23, 0x24, 0x25, 0x26, 0x27, 0x2A] := by
  revert f; decide

theorem opcodeTag_isSome (op : BitVec 6) : ((opcodeITag op).isSome || (opcodeJTag op).isSome) = true ↔
    op.toNat ∈ [0x02, 0x03, 0x04, 0x05, 0x06, 0x07, 0x08, 0x09, 0x0A, 0x0C, 0x0D, 0x0E, 0x0F,
      0x20, 0x21, 0x23, 0x28, 0x29, 0x2B] := by
  revert op; decide

theorem opcodeJTag_of_formatOf_i {op : BitVec 6} : formatOf op = .i → opcodeJTag op = none := by
  revert op; decide

theorem opcodeITag_of_formatOf_j {op : BitVec 6} : formatOf op = .j → opcodeITag op = none := by
  revert op; decide

theorem exists_decodeInstr (w : Word) : (∃ i, decodeInstr w = .ok i) ↔ (decodeWord w).instr.isSome = true := by
  simp only [decodeInstr_eq_ok, Option.isSome_iff_exists]

theorem instr_isSome_of_opcode_zero {w : Word} (h : opcodeOf w = 0#6) :
    (decodeWord w).instr.isSome = (functTag (functOf w)).isSome := by
  unfold decodeWord
  rw [formatOf_eq_r.mpr h]
  exact Option.isSome_map

theorem instr_isSome_of_opcode_ne_zero {w : Word} (h : opcodeOf w ≠ 0#6) :
    (decodeWord w).instr.isSome = ((opcodeITag (opcodeOf w)).isSome || (opcodeJTag (opcodeOf w)).isSome) := by
  unfold decodeWord
  cases hf : formatOf (opcodeOf w) with
  | r => exact absurd (formatOf_eq_r.mp hf) h
  | i =>
    rw [opcodeJTag_of_formatOf_i hf, Option.isSome_none, Bool.or_false]
    exact Option.isSome_map
  | j =>
    rw [opcodeITag_of_formatOf_j hf, Option.isSome_none, Bool.false_or]
    exact Option.isSome_map

/-! ### The obligations of decoding -/

/-- Settles O3: the inversion of the decoder one way; the other way the bits that count fix the tag. -/
theorem decodeIsExact : Obligations.DecodeIsExact :=
  fun _ _ hi => ⟨encode_of_decodeInstr, decodeInstr_of_encode hi⟩

/-- Settles O4: the bytes of a word put it together again. -/
theorem memoryBytesDecode : Obligations.MemoryBytesDecode := by
  refine ⟨fun _ _ => wf_of_decodeInstr, fun i rest hi => ?_⟩
  have hdec : decodeInstr (leWord (byteOf (encode i) 0) (byteOf (encode i) 1) (byteOf (encode i) 2)
      (byteOf (encode i) 3)) = .ok i := by
    rw [leWord_byteOf, decodeInstr_encode hi]
  exact decodeBytes_cons hdec rest

/-- Settles O5. -/
theorem legalWordsAreTheTable : Obligations.LegalWordsAreTheTable := by
  intro w
  rw [exists_decodeInstr]
  by_cases h : opcodeOf w = 0#6
  · rw [instr_isSome_of_opcode_zero h, functTag_isSome, h]
    simp
  · have hne : (opcodeOf w).toNat ≠ 0 := fun e => h (BitVec.eq_of_toNat_eq e)
    rw [instr_isSome_of_opcode_ne_zero h, opcodeTag_isSome]
    exact (or_iff_left fun hz => hne hz.1).symm

/-- Settles O1: each word is decoded by evaluation. -/
theorem writtenWordsDecode : Obligations.WrittenWordsDecode := by
  unfold Obligations.WrittenWordsDecode
  decide

end Sys2Proof
end

section
/-! The step and the invariant (spec/10_state.md R22, R36 to R40; spec/60_exceptions.md R230, R236): a RUNNING step
runs the instruction at the PC and commits a retirement or one legal fault, and no step and no operation of the host
leaves the invariant. -/

namespace Sys2Proof

/-- A list of four bytes decodes as the word they put together. -/
theorem decodeInstr_of_decodeBytes {b0 b1 b2 b3 : Byte} {rest : List Byte} {p : Instr × List Byte}
    (h : decodeBytes (b0 :: b1 :: b2 :: b3 :: rest) = .ok p) : decodeInstr (leWord b0 b1 b2 b3) = .ok p.1 := by
  cases hd : decodeInstr (leWord b0 b1 b2 b3) with
  | ok i =>
    rw [decodeBytes_cons hd] at h
    cases h
    rfl
  | error r =>
    rw [decodeBytes, hd] at h
    cases h

end Sys2Proof

namespace Sys2Proof.Machine

/-! ### The cycle of a fetched instruction -/

/-- A fetch at an aligned PC whose four bytes are mapped answers the word there (R62). -/
theorem fetch_mapped {s : State} (ha : s.current.pc.toNat % 4 = 0)
    (hm : ∀ k < 4, mapped s.cfg (s.current.pc + BitVec.ofNat 32 k) = true) : fetch s = .ok (fetchedWord s) := by
  cases fetch_shape s with
  | misaligned _ hn => exact absurd ha ((aligned_false_iff .word _).mp hn)
  | unmapped _ _ hn =>
    obtain ⟨k, hk, hn⟩ := hn
    rw [hm k hk] at hn
    cases hn
  | word hf => exact hf

/-- Settles O6. -/
theorem stepRunsDecodedInstruction : Obligations.StepRunsDecodedInstruction := by
  intro s t i hr ha hm hd he
  have hi : decodeInstr (fetchedWord s) = .ok i := decodeInstr_of_decodeBytes hd
  rw [step_exec hr (fetch_mapped ha hm) hi, he]
  rfl

theorem exec_answers_next (i : Instr) (s : State) : ∃ t, exec i s = .next t := by
  obtain ⟨e, h, -⟩ | ⟨c, a, h, -⟩ := exec_shape i s
  · exact ⟨_, h⟩
  · exact ⟨_, h⟩

/-- Settles O8. -/
theorem everyStepAnswersNext : Obligations.EveryStepAnswersNext :=
  ⟨exec_answers_next, fun s => ⟨_, advance_step s⟩⟩

/-! ### The record of a fault (R230, R236) -/

/-- The record a cycle that starts in `s` may leave: it names the PC, holds the fields of its cause, and is of a control
transfer in a delay slot only in a delay slot. -/
structure FaultRecord.FitsCycle (r : FaultRecord) (s : State) : Prop where
  pc : r.pc = s.current.pc
  legal : r.Legal
  slot : r.cause = .branchInDelaySlot → s.current.pending.isSome

theorem fetchFault_fitsCycle {s : State} {c : Cause} (h : fetch s = .error c) :
    FaultRecord.FitsCycle ⟨c, s.current.pc, none, some s.current.pc⟩ s := by
  cases fetch_shape s with
  | misaligned hf =>
    rw [hf] at h
    cases h
    exact ⟨rfl, ⟨rfl, fun _ => rfl⟩, by simp⟩
  | unmapped hf =>
    rw [hf] at h
    cases h
    exact ⟨rfl, ⟨rfl, rfl⟩, by simp⟩
  | word hf =>
    rw [hf] at h
    cases h

theorem mayRaise_fitsCycle {s : State} {i : Instr} {c : Cause} {a : Option Word} (h : MayRaise s i c a) (w : Word) :
    FaultRecord.FitsCycle ⟨c, s.current.pc, some w, a⟩ s := by
  cases h with
  | access => exact ⟨rfl, ⟨rfl, by simp⟩, by simp⟩
  | slot _ _ hp => exact ⟨rfl, ⟨rfl, rfl⟩, fun _ => hp⟩
  | add | sub | addi | div | divu => exact ⟨rfl, ⟨rfl, rfl⟩, by simp⟩

/-- A RUNNING step commits a retired instruction or a fault with a record that fits the cycle. -/
theorem step_commits_fitting {s t : State} (hr : s.current.run = true) (hs : step s = .next t) :
    (∃ e, t = commit (retire e s)) ∨
    ∃ r : FaultRecord, r.FitsCycle s ∧ t = commit (takeFault r.cause r.word r.addr s) := by
  cases stepShape_of_step hs with
  | stopped h _ => simp [hr] at h
  | fetchFault c _ hf ht => exact .inr ⟨_, fetchFault_fitsCycle hf, ht⟩
  | illegal _ _ _ _ ht =>
    exact .inr ⟨⟨.illegalInstruction, s.current.pc, some (fetchedWord s), none⟩, ⟨rfl, ⟨rfl, rfl⟩, by simp⟩, ht⟩
  | retired _ e _ _ _ _ _ ht => exact .inl ⟨e, ht⟩
  | raised _ c a _ _ _ _ hm ht => exact .inr ⟨_, mayRaise_fitsCycle hm (fetchedWord s), ht⟩

/-! ### Every step keeps the invariant -/

/-- A RUNNING state that meets the invariant has recorded no fault. -/
theorem State.Inv.noFault {s : State} (h : s.Inv) (hr : s.current.run = true) : s.current.fault = none := by
  cases hf : s.current.fault with
  | none => rfl
  | some r =>
    have hstop := (h.faultStops r hf).1
    rw [hr] at hstop
    cases hstop

theorem commit_retire_inv {s : State} (h : s.Inv) (hr : s.current.run = true) (e : Effects) :
    (commit (retire e s)).Inv where
  committed := rfl
  memCanonical := performStore_wf h.memCanonical e.store
  memMapped := performStore_inRegions h.memMapped e.store
  zeroCell := by simpa using h.zeroCell
  faultStops := fun r hf => by simp [h.noFault hr] at hf

theorem commit_takeFault_inv {s : State} (h : s.Inv) {r : FaultRecord} (hr : r.FitsCycle s) :
    (commit (takeFault r.cause r.word r.addr s)).Inv where
  committed := rfl
  memCanonical := h.memCanonical
  memMapped := h.memMapped
  zeroCell := h.zeroCell
  faultStops := fun q hq => by
    cases hq
    exact ⟨rfl, rfl, hr.pc ▸ hr.legal, hr.slot⟩

theorem step_inv {s t : State} (h : s.Inv) (hs : step s = .next t) : t.Inv := by
  cases hr : s.current.run with
  | false =>
    rw [step_stopped hr] at hs
    cases hs
    exact h
  | true =>
    obtain ⟨e, rfl⟩ | ⟨r, hfit, rfl⟩ := step_commits_fitting hr hs
    · exact commit_retire_inv h hr e
    · exact commit_takeFault_inv h hfit

/-- Settles O23. -/
theorem stepKeepsInvariant : Obligations.StepKeepsInvariant := fun _ _ => step_inv

/-! ### The host's operations and the invariant (R270 to R285) -/

theorem initialise_inv (s : State) : s.initialise.Inv where
  committed := rfl
  memCanonical := reset_mem_wf
  memMapped := fun _ hp => by cases hp
  zeroCell := by simp [State.initialise, Generation.initial]
  faultStops := fun _ hf => by cases hf

/-- Replacing memory by a canonical one that lists only mapped addresses keeps the invariant, whatever is recorded
as the program. -/
theorem State.Inv.withMem {s : State} (h : s.Inv) {m : Memory} (hm : Memory.wf m) (hr : Memory.inRegions s.cfg m)
    (image : List Word) : State.Inv { s with mem := m, image := image } where
  committed := h.committed
  memCanonical := hm
  memMapped := hr
  zeroCell := h.zeroCell
  faultStops := h.faultStops

/-- Replacing both generations by one that keeps the `r0` cell and the control state, and may clear the run flag. -/
theorem State.Inv.withGeneration {s : State} (h : s.Inv) {g : Generation} (hz : g.gpr[0] = s.current.gpr[0])
    (hpc : g.pc = s.current.pc) (hp : g.pending = s.current.pending) (hf : g.fault = s.current.fault)
    (hr : s.current.run = false → g.run = false) : State.Inv { s with current := g, next := g } where
  committed := rfl
  memCanonical := h.memCanonical
  memMapped := h.memMapped
  zeroCell := hz.trans h.zeroCell
  faultStops := fun r hrec => by
    obtain ⟨hstop, hat, hlegal, hslot⟩ := h.faultStops r (hf ▸ hrec)
    exact ⟨hr hstop, hat.trans hpc.symm, hlegal, fun hc => hp ▸ hslot hc⟩

theorem loadProgram_inv {s : State} (h : s.Inv) (words : List Word) : (s.loadProgram words).Inv :=
  h.withMem (writeWords_wf h.memCanonical _ words) (writeWords_inRegions h.memMapped _ words) words

theorem stop_inv {s : State} (h : s.Inv) : s.stop.Inv := by
  unfold State.stop
  rw [h.committed]
  exact h.withGeneration rfl rfl rfl rfl fun _ => rfl

theorem writeRegister_inv {s : State} (h : s.Inv) (i : Reg) (v : Word) : (s.writeRegister i v).Inv := by
  unfold State.writeRegister
  rw [h.committed]
  exact h.withGeneration (by simp) (by simp) (by simp) (by simp) (by simp)

theorem writeHi_inv {s : State} (h : s.Inv) (v : Word) : (s.writeHi v).Inv := by
  unfold State.writeHi
  rw [h.committed]
  exact h.withGeneration rfl rfl rfl rfl id

theorem writeLo_inv {s : State} (h : s.Inv) (v : Word) : (s.writeLo v).Inv := by
  unfold State.writeLo
  rw [h.committed]
  exact h.withGeneration rfl rfl rfl rfl id

theorem writeMemoryWord_inv {s t : State} (h : s.Inv) {a v : Word} (hw : s.writeMemoryWord a v = .next t) : t.Inv := by
  rw [writeMemoryWord_next hw]
  exact h.withMem (memWrite_wf h.memCanonical _ _ _) (memWrite_inRegions h.memMapped _ _ _) s.image

/-- Settles O25. -/
theorem hostOperationsKeepInvariant : Obligations.HostOperationsKeepInvariant :=
  ⟨fun s => ⟨initialise_inv s, loadProgram_inv (initialise_inv s) s.image⟩,
    fun _ h => ⟨loadProgram_inv h, stop_inv h, writeRegister_inv h, writeHi_inv h, writeLo_inv h,
      fun _ _ _ => writeMemoryWord_inv h, fun n => hostStep_keeps (fun _ _ hs hi => step_inv hi hs) n h⟩⟩

/-- Settles O24: the reset state is an initial one, under the default parameters. -/
theorem resetMeetsInvariant : Obligations.ResetMeetsInvariant :=
  ⟨initialise_inv State.reset, by decide⟩

end Sys2Proof.Machine
end

section
/-! Control transfers and the PC (spec/10_state.md R41; spec/44_control.md R200 to R213): what a retirement commits to
the PC and the pending target, that aligned ones stay aligned, and what each transfer does in a delay slot and
outside one. -/

namespace Sys2Proof.Machine

/-! ### The commit of the PC (R41, R200) -/

theorem retire_inSlot {s : State} {a : Word} (h : s.current.pending = some a) (e : Effects) :
    (retire e s).next.pc = a ∧ (retire e s).next.pending = none := (retire_pcCommitted e s).1 a h

theorem retire_notInSlot {s : State} (h : s.current.pending = none) (e : Effects) :
    (retire e s).next.pc = s.current.pc + 4#32 ∧ (retire e s).next.pending = e.redirect :=
  (retire_pcCommitted e s).2 h

/-- No control transfer retires in a delay slot (R202). -/
theorem Allowed.notTransfer_inSlot {i : Instr} {s : State} {e : Effects} (ha : Allowed i s e) {a : Word}
    (hp : s.current.pending = some a) : i.isTransfer = false := by
  cases ht : i.isTransfer with
  | false => rfl
  | true =>
    have hn := ha.slot ht
    rw [hp] at hn
    cases hn

/-- Settles O11. -/
theorem pcCommitRule : Obligations.PcCommitRule := by
  intro i s t _ h ht
  obtain ⟨e, rfl, ha⟩ | ⟨c, a, rfl, _⟩ := exec_cases h
  · refine ⟨fun a hp => ⟨ha.notTransfer_inSlot hp, retire_inSlot hp e⟩, fun hp => ?_⟩
    rw [← retire_redirect h ha]
    exact retire_notInSlot hp e
  · simp at ht

/-- Settles O12: the transfer's cycle leaves the target pending, and the next cycle is a retirement in its slot. -/
theorem delaySlotRunsBeforeTarget : Obligations.DelaySlotRunsBeforeTarget := by
  intro s t u w v i k hr hp hf hd hi hs _ _ hu hrun
  obtain ⟨link, target, he, htarget⟩ := exec_transfer hp hi
  rw [step_exec hr hf hd, he] at hs
  cases hs
  obtain ⟨hpc, hpending⟩ := retire_notInSlot hp { gpr := link, redirect := some target }
  obtain ⟨e, rfl⟩ | ⟨c, word, a, rfl⟩ := step_commits (by simpa using hr) hu
  · obtain ⟨hpc', hpending'⟩ := retire_inSlot (s := commit (retire _ s)) hpending e
    exact ⟨hpc, (congrArg some hpc').trans htarget, hpending'⟩
  · simp at hrun

/-! ### Multiples of 4 (R203) -/

theorem add_aligned {a b : Word} (ha : a.toNat % 4 = 0) (hb : b.toNat % 4 = 0) : (a + b).toNat % 4 = 0 := by
  rw [BitVec.toNat_add]
  omega

theorem branchTarget_aligned {pc : Word} (h : pc.toNat % 4 = 0) (off : BitVec 16) :
    (branchTarget pc off).toNat % 4 = 0 := by
  refine add_aligned (add_aligned h rfl) ?_
  rw [BitVec.toNat_shiftLeft, Nat.shiftLeft_eq]
  omega

theorem jumpTarget_aligned (pc : Word) (target : BitVec 26) : (jumpTarget pc target).toNat % 4 = 0 := by
  rw [jumpTarget_eq, BitVec.toNat_ofNat]
  omega

/-- A redirect target that does not come from a register is a multiple of 4 when the PC is (R86, R87). -/
theorem redirectTarget_aligned {i : Instr} {s : State} {a : Word} (hj : i.jumpsThroughRegister = false)
    (hpc : s.current.pc.toNat % 4 = 0) (ha : i.redirectTarget s = some a) : a.toNat % 4 = 0 := by
  have hbranch (p : Prop) [Decidable p] (off : BitVec 16) :
      (if p then branchTarget s.current.pc off else s.current.pc + 8#32).toNat % 4 = 0 := by
    split
    · exact branchTarget_aligned hpc off
    · exact add_aligned hpc rfl
  cases i with
  | jr | jalr => cases hj
  | beq | bne | blez | bgtz => cases ha; exact hbranch _ _
  | j target | jal target => cases ha; exact jumpTarget_aligned _ target
  | _ => cases ha

/-- Settles O13. -/
theorem alignedPcIsKept : Obligations.AlignedPcIsKept := by
  intro i s t hj h hpc hpending
  obtain ⟨e, rfl, ha⟩ | ⟨c, a, rfl, _⟩ := exec_cases h
  · cases hp : s.current.pending with
    | some a =>
      obtain ⟨hpc', hpending'⟩ := retire_inSlot hp e
      rw [hpc', hpending']
      exact ⟨hpending a hp, fun _ hb => by cases hb⟩
    | none =>
      obtain ⟨hpc', hpending'⟩ := retire_notInSlot hp e
      rw [hpc', hpending', retire_redirect h ha]
      exact ⟨add_aligned hpc rfl, fun _ => redirectTarget_aligned hj hpc⟩
  · exact ⟨hpc, hpending⟩

/-! ### The transfers -/

/-- Every control transfer is the shared operation with a link and a target of its own. -/
theorem exec_eq_transfer {i : Instr} (h : i.isTransfer = true) (s : State) :
    ∃ link target, exec i s = transfer link target s := by
  cases i with
  | jr | jalr | beq | bne | blez | bgtz | j | jal => exact ⟨_, _, rfl⟩
  | _ => cases h

theorem exec_transfer_inSlot {i : Instr} {s : State} (hi : i.isTransfer = true)
    (hp : s.current.pending.isSome = true) :
    exec i s = .next (takeFault .branchInDelaySlot (some (fetchedWord s)) none s) := by
  obtain ⟨link, target, he⟩ := exec_eq_transfer hi s
  exact he.trans (transfer_raises hp link target)

/-- Settles O20. -/
theorem transferInDelaySlotFaults : Obligations.TransferInDelaySlotFaults := fun _ s hi hp =>
  ⟨_, exec_transfer_inSlot hi hp, takeFault_raised _ _ _ s⟩

section NotInSlot
variable {s : State} (hp : s.current.pending = none)
include hp

theorem transfer_redirectOnly (target : Word) : ∃ t, transfer none target s = .next t ∧ RedirectOnly target s t :=
  ⟨_, transfer_next hp none target, retire_redirectOnly hp target⟩

theorem transfer_redirectAndLink (d : Reg) (link target : Word) :
    ∃ t, transfer (some (d, link)) target s = .next t ∧ RedirectAndLink d link target s t :=
  ⟨_, transfer_next hp _ target, retire_redirectAndLink hp d link target⟩

/-- A branch whose condition decides `p` (R201, R210). -/
theorem branch_redirectOnly {taken : Bool} {p : Prop} [Decidable p] (h : taken = true ↔ p) (off : BitVec 16) :
    ∃ t, branch taken off s = .next t ∧ RedirectOnly
      (if p then s.current.pc + BitVec.ofInt 32 (4 + 4 * off.toInt) else s.current.pc + 8#32) s t := by
  have htarget : (if p then s.current.pc + BitVec.ofInt 32 (4 + 4 * off.toInt) else s.current.pc + 8#32) =
      if taken then branchTarget s.current.pc off else afterSlot s.current.pc := by
    simp only [branchTarget_eq, afterSlot, h]
  rw [htarget]
  exact transfer_redirectOnly hp _

end NotInSlot

/-- Settles O38. -/
theorem registerJumps : Obligations.RegisterJumps := fun rd _ _ hp =>
  ⟨transfer_redirectOnly hp _, transfer_redirectAndLink hp rd _ _⟩

/-- Settles O39, one condition per branch. -/
theorem conditionalBranches : Obligations.ConditionalBranches := by
  intro rs rt off s hp
  refine ⟨branch_redirectOnly hp beq_iff_eq off, ?bne, branch_redirectOnly hp decide_eq_true_iff off,
    branch_redirectOnly hp decide_eq_true_iff off⟩
  case bne =>
    rw [← ite_not]
    exact branch_redirectOnly hp bne_iff_ne off

/-- Settles O40. -/
theorem absoluteJumps : Obligations.AbsoluteJumps := by
  intro target s hp
  simp only [← jumpTarget_eq]
  exact ⟨transfer_redirectOnly hp _, transfer_redirectAndLink hp 31 _ _⟩

end Sys2Proof.Machine
end

section
/-! Faults (spec/60_exceptions.md R230 to R239): the codes, which fault a cycle raises first, and the instructions that
raise a fault of their own, each on exactly its condition. -/

namespace Sys2Proof.Machine

/-! ### The record -/

/-- Settles O21. -/
theorem faultCodesAreOneToSix : Obligations.FaultCodesAreOneToSix := by
  have hcode (c : Cause) : c.code ≠ 7#3 ∧ c.code ≠ 0#3 := by cases c <;> decide
  refine ⟨fun g => ?_, fun c => by cases c <;> rfl, rfl⟩
  unfold Generation.faultCode
  cases g.fault with
  | none => exact ⟨by decide, by simp⟩
  | some r => exact ⟨(hcode r.cause).1, iff_of_false (hcode r.cause).2 (by simp)⟩

/-- Settles O14: the commit of a fault, with a record that fits the cycle. -/
theorem faultingCyclesArePrecise : Obligations.FaultingCyclesArePrecise := by
  intro s t hr hs ht
  obtain ⟨e, rfl⟩ | ⟨r, hfit, rfl⟩ := step_commits_fitting hr hs
  · simp [hr] at ht
  · refine ⟨r, hfit.pc, hfit.legal, ?_⟩
    rw [commit, takeFault, ← hfit.pc]

/-! ### The first fault of a cycle (R239) -/

/-- Where no control transfer stands in a delay slot, the faults left are overflow, a zero divisor and a misaligned
access. -/
theorem MayRaise.cause_of_noSlotFault {s : State} {i : Instr} {c : Cause} {a : Option Word} (h : MayRaise s i c a)
    (hn : i.isTransfer = false ∨ s.current.pending = none) :
    c = .arithmeticOverflow ∨ c = .divisionByZero ∨ c = .unalignedAccess := by
  cases h with
  | add | sub | addi => exact .inl rfl
  | div | divu => exact .inr (.inl rfl)
  | access => exact .inr (.inr rfl)
  | slot _ ht hp => rcases hn with hn | hn <;> simp [hn] at ht hp

/-- What is left when no phase before the instruction's own rule raises a fault. -/
theorem exec_ownFault {i : Instr} {s t : State} (h : exec i s = .next t) (hr : s.current.run = true)
    (hn : i.isTransfer = false ∨ s.current.pending = none) :
    (t.next.fault = s.current.fault ∧ t.next.run = true) ∨
    ∃ r, t.next.fault = some r ∧ r.pc = s.current.pc ∧ r.word = some (fetchedWord s) ∧
      (r.cause = .arithmeticOverflow ∨ r.cause = .divisionByZero ∨ r.cause = .unalignedAccess) := by
  obtain ⟨e, rfl, _⟩ | ⟨c, a, rfl, hm⟩ := exec_cases h
  · exact .inl ⟨by simp, by simp [hr]⟩
  · exact .inr ⟨_, rfl, rfl, rfl, hm.cause_of_noSlotFault hn⟩

theorem advance_eq {s t : State} (h : step s = .next t) : advance s = t :=
  Host.Outcome.next.inj ((advance_step s).symm.trans h)

/-- Settles O15, along the outcomes of the fetch, then of the decoder, then of the instruction. -/
theorem firstFaultInPhaseOrder : Obligations.FirstFaultInPhaseOrder := by
  intro s hr
  refine ⟨_, advance_step s, ?_⟩
  have haligned := aligned_iff .word s.current.pc
  cases fetch_shape s with
  | misaligned hf ha =>
    have hpc := (aligned_false_iff .word _).mp ha
    rw [advance_eq (step_fetchFault hr hf)]
    exact ⟨fun _ => rfl, fun h => absurd h hpc, fun h => absurd h hpc⟩
  | unmapped hf ha hm =>
    obtain ⟨k, hk, hm⟩ := hm
    rw [advance_eq (step_fetchFault hr hf)]
    exact ⟨fun h => absurd (haligned.mp ha) h, fun _ _ => rfl, fun _ hall => absurd (hall k hk) (by simp [hm])⟩
  | word hf ha hm =>
    refine ⟨fun h => absurd (haligned.mp ha) h, fun _ ⟨k, hk, hn⟩ => absurd (hm k hk) (by simp [hn]),
      fun _ _ => ⟨fun r hd => ?illegal, fun i hd hi hp => ?slot, fun i hd hn => ?own⟩⟩
    case illegal =>
      rw [advance_eq (step_illegal hr hf hd)]
      rfl
    case slot =>
      have hstep := step_exec hr hf hd
      rw [exec_transfer_inSlot hi hp] at hstep
      rw [advance_eq hstep]
      rfl
    case own =>
      obtain ⟨t, ht⟩ := exec_answers_next i s
      have hstep := step_exec hr hf hd
      rw [ht] at hstep
      rw [advance_eq hstep]
      exact exec_ownFault ht hr hn

/-! ### Overflow (R110, R116, R160, R231) -/

/-- An instruction that checks a result and writes it: it raises exactly where the result does not fit. -/
theorem trap_exact {s : State} {o : Host.Outcome State Fault Refusal} {b : Bool} {fits : Prop} {d : Reg} {v : Word}
    (ho : o = if b then raise .arithmeticOverflow none s else finishGpr d v s) (hb : b = true ↔ ¬fits) :
    (fits → ∃ t, o = .next t ∧ GprOnly d v s t) ∧
    (¬fits → ∃ t, o = .next t ∧ Raised .arithmeticOverflow (some (fetchedWord s)) none s t) := by
  subst ho
  refine ⟨fun h => ?_, fun h => ?_⟩
  · rw [if_neg (fun ht => hb.mp ht h)]
    exact ⟨_, rfl, retire_gprOnly d v s⟩
  · rw [if_pos (hb.mpr h)]
    exact ⟨_, rfl, takeFault_raised _ _ _ s⟩

/-- Settles O16. -/
theorem overflowIsExact : Obligations.OverflowIsExact := by
  refine ⟨fun rd rs rt s => ?add, fun rd rs rt s => ?sub, fun rt rs imm s => ?addi⟩
  case add =>
    simp only [← add_eq_ofInt]
    exact trap_exact rfl (addOverflows_iff _ _)
  case sub =>
    simp only [← sub_eq_ofInt]
    exact trap_exact rfl (subOverflows_iff _ _)
  case addi =>
    simp only [← sext32_toInt imm, ← add_eq_ofInt]
    exact trap_exact rfl (addOverflows_iff _ _)

/-- Where the exact result does not fit, the execution is the taking of the fault. -/
theorem exec_of_overflows {i : Instr} {s : State} (h : i.Overflows s) :
    exec i s = .next (takeFault .arithmeticOverflow (some (fetchedWord s)) none s) := by
  cases i with
  | add rd rs rt => exact if_pos ((addOverflows_iff _ _).mpr h)
  | sub rd rs rt => exact if_pos ((subOverflows_iff _ _).mpr h)
  | addi rt rs imm => exact if_pos ((addOverflows_iff _ _).mpr (sext32_toInt imm ▸ h))
  | _ => exact h.elim

theorem MayRaise.overflows {s : State} {i : Instr} {a : Option Word} (h : MayRaise s i .arithmeticOverflow a) :
    i.Overflows s := by
  cases h with
  | add rd rs rt h => exact (addOverflows_iff _ _).mp h
  | sub rd rs rt h => exact (subOverflows_iff _ _).mp h
  | addi rt rs imm h =>
    rw [addOverflows_iff, sext32_toInt] at h
    exact h

/-- Settles O17. -/
theorem overflowPolicy : Obligations.OverflowPolicy := by
  refine ⟨fun i s t h ho => ?raised, fun i s t r h hf hne hc => ?only, fun s rd rs rt imm => ⟨id, id, id⟩⟩
  case raised =>
    rw [exec_of_overflows ho] at h
    cases h
    exact ⟨⟨_, rfl, rfl⟩, raised_regsKept (takeFault_raised _ _ _ s), rfl, step_stopped rfl⟩
  case only =>
    obtain ⟨e, rfl, _⟩ | ⟨c, a, rfl, hm⟩ := exec_cases h
    · exact absurd (by simp) hne
    · cases hf
      cases hc
      exact hm.overflows

/-! ### Division by zero (R232) -/

/-- Settles O18. -/
theorem divisionByZeroHalts : Obligations.DivisionByZeroHalts := fun _ _ s h =>
  ⟨⟨_, if_pos h, takeFault_raised _ _ _ s, rfl, rfl, rfl⟩, ⟨_, if_pos h, takeFault_raised _ _ _ s, rfl, rfl, rfl⟩⟩

/-! ### Misaligned accesses (R58, R181) -/

theorem even_iff_getLsbD (a : Word) : a.toNat % 2 = 0 ↔ a.getLsbD 0 = false := by
  simp [BitVec.getLsbD, Nat.testBit_zero]

theorem multiple_of_four_iff_getLsbD (a : Word) :
    a.toNat % 4 = 0 ↔ a.getLsbD 0 = false ∧ a.getLsbD 1 = false := by
  simp only [BitVec.getLsbD, Nat.testBit_succ, Nat.testBit_zero, decide_eq_false_iff_not]
  omega

/-- Settles O19. -/
theorem misalignedAccessFaults : Obligations.MisalignedAccessFaults := by
  intro i s ea w h
  obtain ⟨hmis, hal⟩ := exec_access h
  refine ⟨fun ha => ?misaligned, fun ha => ?aligned, ?byte, ?half, ?word⟩
  case misaligned =>
    have hraised := takeFault_raised .unalignedAccess (some (fetchedWord s)) (some ea) s
    exact ⟨_, hmis ((aligned_false_iff w ea).mpr ha), hraised, raised_regsKept hraised, raised_bytesKept hraised⟩
  case aligned =>
    obtain ⟨e, he, -⟩ := hal ((aligned_iff w ea).mpr ha)
    exact ⟨_, he, by simp, by simp⟩
  case byte => rintro rfl; exact Nat.mod_one _
  case half => rintro rfl; exact even_iff_getLsbD ea
  case word => rintro rfl; exact multiple_of_four_iff_getLsbD ea

end Sys2Proof.Machine
end

section
/-! What the register, HI/LO, load and store instructions write (spec/40_r_alu.md, 41_r_muldiv.md, 42_i_alu.md,
43_loadstore.md): each retires with one shared shape, and the value of the model is the value the statement names. -/

namespace Sys2Proof.Machine

/-! ### One answer per shape -/

theorem finishGpr_gprOnly (d : Reg) {v w : Word} (h : v = w) (s : State) :
    ∃ t, finishGpr d v s = .next t ∧ GprOnly d w s t :=
  ⟨_, finishGpr_next d v s, h ▸ retire_gprOnly d v s⟩

theorem finishHiLo_hiLoOnly (hi lo : Word) (s : State) :
    ∃ t, finishHiLo hi lo s = .next t ∧ HiLoOnly hi lo s t :=
  ⟨_, rfl, retire_hiLoOnly (some hi) (some lo) s⟩

theorem load_gprOnly {w : Width} {rs : Reg} {imm : BitVec 16} {s : State} {read : Config → Memory → Word → Word}
    {v : Word} (ha : (effectiveAddress (s.x rs) imm).toNat % w.bytes = 0)
    (hv : read s.cfg s.mem (effectiveAddress (s.x rs) imm) = v) (rt : Reg) :
    ∃ t, load w rt rs imm read s = .next t ∧ GprOnly rt v s t :=
  ⟨_, load_next ((aligned_iff w _).mpr ha) rt read, hv ▸ retire_gprOnly rt _ s⟩

theorem store_storeOnly {w : Width} {rs : Reg} {imm : BitVec 16} {s : State} (hm : Memory.wf s.mem)
    (ha : (effectiveAddress (s.x rs) imm).toNat % w.bytes = 0) (rt : Reg) :
    ∃ t, store w rt rs imm s = .next t ∧ StoreOnly (effectiveAddress (s.x rs) imm) w.bytes (s.x rt) s t :=
  ⟨_, store_next ((aligned_iff w _).mpr ha) rt, retire_storeOnly hm _ _ w⟩

/-! ### Addition, logic, comparison (R111 to R118, R161 to R166) -/

theorem add_eq_ofNat (a b : Word) : a + b = BitVec.ofNat 32 (a.toNat + b.toNat) := by
  simp [BitVec.ofNat_add]

theorem sub_eq_ofInt_toNat (a b : Word) : a - b = BitVec.ofInt 32 (a.toNat - b.toNat) := by
  rw [sub_eq_ofInt, BitVec.toInt_eq_toNat_bmod, BitVec.toInt_eq_toNat_bmod]
  apply BitVec.eq_of_toInt_eq
  simp

/-- Settles O27. -/
theorem wrappingAddSubtract : Obligations.WrappingAddSubtract := fun rd _ _ s =>
  ⟨finishGpr_gprOnly rd (add_eq_ofNat _ _) s, finishGpr_gprOnly rd (sub_eq_ofInt_toNat _ _) s⟩

/-- Settles O28. -/
theorem logicResults : Obligations.LogicResults := fun rd _ _ s =>
  ⟨finishGpr_gprOnly rd rfl s, finishGpr_gprOnly rd rfl s, finishGpr_gprOnly rd rfl s, finishGpr_gprOnly rd rfl s⟩

/-- Settles O29. -/
theorem setLessThan : Obligations.SetLessThan :=
  ⟨fun rd _ _ s => finishGpr_gprOnly rd rfl s,
    fun rt _ imm s => finishGpr_gprOnly rt (by rw [setLess, sext32_toInt]) s⟩

/-- Settles O35. -/
theorem immediateResults : Obligations.ImmediateResults := fun rt _ imm s =>
  ⟨finishGpr_gprOnly rt (by rw [add_eq_ofInt, sext32_toInt]) s,
    finishGpr_gprOnly rt (by rw [zext32_eq]) s, finishGpr_gprOnly rt (by rw [zext32_eq]) s,
    finishGpr_gprOnly rt (by rw [zext32_eq]) s, finishGpr_gprOnly rt (upperImm_eq imm) s⟩

/-! ### Shifts (R119 to R121) -/

theorem shiftLeft_eq_ofNat (a : Word) (n : Nat) : a <<< n = BitVec.ofNat 32 (a.toNat * 2 ^ n) := by
  apply BitVec.eq_of_toNat_eq
  rw [BitVec.toNat_shiftLeft, BitVec.toNat_ofNat, Nat.shiftLeft_eq]

theorem ushiftRight_eq_ofNat (a : Word) (n : Nat) : a >>> n = BitVec.ofNat 32 (a.toNat / 2 ^ n) := by
  apply BitVec.eq_of_toNat_eq
  rw [BitVec.toNat_ushiftRight, BitVec.toNat_ofNat, Nat.shiftRight_eq_div_pow,
    Nat.mod_eq_of_lt ((Nat.div_le_self _ _).trans_lt a.isLt)]

theorem sshiftRight_eq_ofInt (a : Word) (n : Nat) : a.sshiftRight n = BitVec.ofInt 32 (a.toInt / 2 ^ n) := by
  rw [← BitVec.ofInt_toInt (x := a.sshiftRight n), BitVec.toInt_sshiftRight, Int.shiftRight_eq_div_pow]
  simp

/-- Settles O30. -/
theorem shiftResults : Obligations.ShiftResults := fun rd _ shamt s =>
  ⟨finishGpr_gprOnly rd (shiftLeft_eq_ofNat _ shamt) s, finishGpr_gprOnly rd (ushiftRight_eq_ofNat _ shamt) s,
    finishGpr_gprOnly rd (sshiftRight_eq_ofInt _ shamt) s⟩

/-! ### Multiplication (R140, R141) -/

/-- The product of two signed words lies in `-2^62 .. 2^62`, so 64 bits hold it. -/
theorem signedProduct_toInt (a b : Word) : (signedProduct a b).toInt = a.toInt * b.toInt := by
  have hle := BitVec.toInt_mul_toInt_le (x := a) (y := b)
  have hge := BitVec.le_toInt_mul_toInt (x := a) (y := b)
  refine BitVec.toInt_ofInt_eq_self (by decide) ?_ ?_
  · omega
  · omega

theorem unsignedProduct_toNat (a b : Word) : (unsignedProduct a b).toNat = a.toNat * b.toNat := by
  have hlt : a.toNat * b.toNat < 2 ^ 32 * 2 ^ 32 := Nat.mul_lt_mul'' a.isLt b.isLt
  exact Nat.mod_eq_of_lt hlt

/-- Settles O31: the halves written put the 64-bit product together again. -/
theorem multiplyIsExact : Obligations.MultiplyIsExact := by
  intro rs rt s
  constructor
  · obtain ⟨t, ht, honly⟩ := finishHiLo_hiLoOnly ((signedProduct (s.x rs) (s.x rt)).extractLsb' 32 32)
      ((signedProduct (s.x rs) (s.x rt)).extractLsb' 0 32) s
    exact ⟨t, _, _, ht, honly, by rw [append_halves, signedProduct_toInt]⟩
  · obtain ⟨t, ht, honly⟩ := finishHiLo_hiLoOnly ((unsignedProduct (s.x rs) (s.x rt)).extractLsb' 32 32)
      ((unsignedProduct (s.x rs) (s.x rt)).extractLsb' 0 32) s
    exact ⟨t, _, _, ht, honly, by rw [append_halves, unsignedProduct_toNat]⟩

/-! ### Division (R142, R143) -/

theorem signedQuotient_eq_sdiv (a b : Word) : signedQuotient a b = a.sdiv b := by
  apply BitVec.eq_of_toInt_eq
  rw [signedQuotient, BitVec.toInt_ofInt, BitVec.toInt_sdiv]

theorem signedRemainder_eq_srem (a b : Word) : signedRemainder a b = a.srem b := by
  rw [signedRemainder_eq, ← BitVec.toInt_srem, BitVec.ofInt_toInt]

theorem unsignedQuotient_eq_div (a b : Word) : unsignedQuotient a b = a / b := BitVec.udiv_def.symm

theorem unsignedRemainder_eq_mod (a b : Word) : unsignedRemainder a b = a % b := BitVec.umod_def.symm

section Divide
variable {s : State} {rt : Reg} (h : s.x rt ≠ 0#32) (rs : Reg)
include h

theorem execDiv_next : exec (.div rs rt) s =
    finishHiLo (signedRemainder (s.x rs) (s.x rt)) (signedQuotient (s.x rs) (s.x rt)) s := if_neg h

theorem execDivu_next : exec (.divu rs rt) s =
    finishHiLo (unsignedRemainder (s.x rs) (s.x rt)) (unsignedQuotient (s.x rs) (s.x rt)) s := if_neg h

end Divide

/-- Settles O32. -/
theorem divideResults : Obligations.DivideResults := by
  intro rs rt s h
  rw [execDiv_next h, execDivu_next h, ← signedRemainder_eq]
  exact ⟨finishHiLo_hiLoOnly _ _ s, finishHiLo_hiLoOnly _ _ s⟩

/-- A nonzero remainder of the truncating division has the sign of the dividend. -/
theorem tmod_pos_iff {n d : Int} (h : n.tmod d ≠ 0) : 0 < n.tmod d ↔ 0 < n := by
  have hsign : (n.tmod d).sign = n.sign := by
    rw [Int.sign_tmod, if_neg fun hd => h (Int.tmod_eq_zero_of_dvd hd)]
  rw [← Int.sign_eq_one_iff_pos, hsign, Int.sign_eq_one_iff_pos]

theorem abs_tmod_lt {n d : Int} (h : d ≠ 0) : |n.tmod d| < |d| := by
  rw [Int.abs_eq_natAbs, Int.abs_eq_natAbs, Int.natAbs_tmod]
  exact_mod_cast Nat.mod_lt _ (Int.natAbs_pos.mpr h)

/-- The law of the signed division where the quotient fits: everywhere but at `-2^31 / -1` (R142, D18, D19). -/
theorem signedDivision_law {a b : Word} (hb : b ≠ 0#32) (hfit : ¬(a.toInt = -2 ^ 31 ∧ b.toInt = -1)) :
    a.toInt = (a.sdiv b).toInt * b.toInt + (a.srem b).toInt ∧ |(a.srem b).toInt| < |b.toInt| ∧
      ((a.srem b).toInt ≠ 0 → (0 < (a.srem b).toInt ↔ 0 < a.toInt)) := by
  have hne : a ≠ BitVec.intMin 32 ∨ b ≠ -1#32 := by
    by_contra hc
    push Not at hc
    obtain ⟨rfl, rfl⟩ := hc
    exact hfit ⟨by decide, by decide⟩
  have hb' : b.toInt ≠ 0 := fun e => hb (BitVec.eq_of_toInt_eq e)
  rw [BitVec.toInt_sdiv_of_ne_or_ne a b hne, BitVec.toInt_srem]
  exact ⟨(Int.tdiv_mul_add_tmod _ _).symm, abs_tmod_lt hb', tmod_pos_iff⟩

theorem signedDivision_wraps {a b : Word} (ha : a.toInt = -2 ^ 31) (hb : b.toInt = -1) :
    a.sdiv b = 0x80000000#32 ∧ a.srem b = 0#32 := by
  obtain rfl : a = 0x80000000#32 := BitVec.eq_of_toInt_eq ha
  obtain rfl : b = 0xFFFFFFFF#32 := BitVec.eq_of_toInt_eq hb
  decide

theorem unsignedDivision_law {a b : Word} (hb : b ≠ 0#32) :
    a.toNat = (a / b).toNat * b.toNat + (a % b).toNat ∧ (a % b).toNat < b.toNat := by
  have hb' : b.toNat ≠ 0 := fun e => hb (BitVec.eq_of_toNat_eq e)
  rw [BitVec.toNat_udiv, BitVec.toNat_umod, Nat.mul_comm]
  exact ⟨(Nat.div_add_mod _ _).symm, Nat.mod_lt _ (Nat.pos_of_ne_zero hb')⟩

/-- Settles O33. -/
theorem divisionLaw : Obligations.DivisionLaw := by
  refine ⟨fun rs rt s t hd h => ?div, fun rs rt s t hd h => ?divu⟩
  case div =>
    rw [execDiv_next hd, signedRemainder_eq_srem, signedQuotient_eq_sdiv] at h
    obtain ⟨u, hu, hhi, hlo, -⟩ := finishHiLo_hiLoOnly ((s.x rs).srem (s.x rt)) ((s.x rs).sdiv (s.x rt)) s
    obtain rfl := Host.Outcome.next.inj (h.symm.trans hu)
    simp only [hhi, hlo]
    exact ⟨fun ⟨ha, hb⟩ => signedDivision_wraps ha hb, signedDivision_law hd⟩
  case divu =>
    rw [execDivu_next hd, unsignedRemainder_eq_mod, unsignedQuotient_eq_div] at h
    obtain ⟨u, hu, hhi, hlo, -⟩ := finishHiLo_hiLoOnly (s.x rs % s.x rt) (s.x rs / s.x rt) s
    obtain rfl := Host.Outcome.next.inj (h.symm.trans hu)
    rw [hhi, hlo]
    exact unsignedDivision_law hd

/-- Settles O34. -/
theorem hiLoMoves : Obligations.HiLoMoves := fun r s =>
  ⟨finishGpr_gprOnly r rfl s, finishGpr_gprOnly r rfl s,
    ⟨_, finish_next { hi := some (s.x r) } s, retire_hiLoOnly (some (s.x r)) none s⟩,
    ⟨_, finish_next { lo := some (s.x r) } s, retire_hiLoOnly none (some (s.x r)) s⟩⟩

/-! ### Loads and stores (R180 to R187) -/

theorem leHalf_eq_ofNat (b0 b1 : Byte) : leHalf b0 b1 = BitVec.ofNat 16 (b0.toNat + 2 ^ 8 * b1.toNat) := by
  rw [← leHalf_toNat, BitVec.ofNat_toNat, BitVec.setWidth_eq]

theorem leWord_eq_ofNat (b0 b1 b2 b3 : Byte) : leWord b0 b1 b2 b3 =
    BitVec.ofNat 32 (b0.toNat + 2 ^ 8 * b1.toNat + 2 ^ 16 * b2.toNat + 2 ^ 24 * b3.toNat) := by
  rw [← leWord_toNat, BitVec.ofNat_toNat, BitVec.setWidth_eq]

/-- Settles O36. -/
theorem loadResults : Obligations.LoadResults := by
  intro rt rs imm s
  simp only [BitVec.add_zero]
  refine ⟨load_gprOnly (w := .byte) (Nat.mod_one _) ?byte rt, fun ha => load_gprOnly (w := .half) ha ?half rt,
    fun ha => load_gprOnly (w := .word) ha ?word rt⟩
  case byte => rw [BitVec.ofNat_toNat, BitVec.setWidth_eq]; rfl
  case half => rw [← leHalf_eq_ofNat]; rfl
  case word => rw [← leWord_eq_ofNat]; rfl

/-- Settles O37. -/
theorem storeResults : Obligations.StoreResults := fun rt _ _ _ hm =>
  ⟨store_storeOnly (w := .byte) hm (Nat.mod_one _) rt, fun ha => store_storeOnly (w := .half) hm ha rt,
    fun ha => store_storeOnly (w := .word) hm ha rt⟩

end Sys2Proof.Machine
end

section
/-! What no instruction does (spec/10_state.md R22, R23, R27; spec/43_loadstore.md R188): the frames of the general
registers, of memory and of HI and LO, and that only mfhi and mflo read HI and LO. -/

namespace Sys2Proof.Machine

/-! ### General registers (R22, R23) -/

theorem exec_regsKept_of_dest_zero {i : Instr} {s t : State} (h : exec i s = .next t) (hd : i.dest = some 0) :
    RegsKept s t := by
  intro r
  by_cases hr : r = 0
  · rw [hr, Generation.x_zero, Generation.x_zero]
  · exact exec_x_of_dest_ne h fun e => hr (Option.some.inj (hd.symm.trans e)).symm

/-- Settles O41. -/
theorem onlyDestinationRegisterChanges : Obligations.OnlyDestinationRegisterChanges :=
  ⟨fun _ _ _ _ => exec_x_of_dest_ne, fun _ _ _ => exec_regsKept_of_dest_zero, fun _ _ => ⟨rfl, rfl⟩⟩

/-! ### Memory (R56, R188) -/

/-- An effect that only flagged instructions may have is absent where the flag is not set. -/
theorem eq_none_of_flag {α : Type} {o : Option α} {b : Bool} (h : o ≠ none → b = true) (hb : b = false) : o = none := by
  by_contra hne
  rw [h hne] at hb
  cases hb

theorem exec_mem_of_notStore {i : Instr} {s t : State} (h : exec i s = .next t) (hi : i.isStore = false) :
    t.mem = s.mem := by
  obtain ⟨e, rfl, ha⟩ | ⟨c, a, rfl, _⟩ := exec_cases h
  · rw [retire_mem, eq_none_of_flag ha.store hi, performStore_none]
  · rfl

/-- A byte outside the access of a load or store is kept, on either side of the alignment check. -/
theorem exec_byteAt_outside {i : Instr} {s t : State} {ea a : Word} {w : Width} (hm : Memory.wf s.mem)
    (h : exec i s = .next t) (hi : i.access s = some (ea, w)) (ha : ¬InAccess ea w.bytes a) :
    byteAt t.cfg t.mem a = byteAt s.cfg s.mem a := by
  obtain ⟨hmis, hal⟩ := exec_access hi
  cases hw : w.aligned ea with
  | false =>
    rw [hmis hw] at h
    cases h
    exact raised_bytesKept (takeFault_raised _ _ _ s) a
  | true =>
    obtain ⟨e, he, hstore⟩ := hal hw
    rw [he] at h
    cases h
    obtain hnone | ⟨_, v, rfl⟩ := hstore
    · exact retire_bytesKept hnone s a
    · exact (retire_bytesWritten hm ea v w).2.2 a ha

/-- Settles O42. -/
theorem onlyStoresWriteMemory : Obligations.OnlyStoresWriteMemory :=
  ⟨fun _ _ _ => exec_mem_of_notStore, fun _ _ _ _ _ _ => exec_byteAt_outside⟩

/-! ### HI and LO (R27) -/

theorem exec_hi_of_notWriter {i : Instr} {s t : State} (h : exec i s = .next t) (hi : i.writesHi = false) :
    t.next.hi = s.current.hi := by
  obtain ⟨e, rfl, ha⟩ | ⟨c, a, rfl, _⟩ := exec_cases h
  · have hnone : e.hi = none := eq_none_of_flag ha.hi hi
    simp [hnone]
  · rfl

theorem exec_lo_of_notWriter {i : Instr} {s t : State} (h : exec i s = .next t) (hi : i.writesLo = false) :
    t.next.lo = s.current.lo := by
  obtain ⟨e, rfl, ha⟩ | ⟨c, a, rfl, _⟩ := exec_cases h
  · have hnone : e.lo = none := eq_none_of_flag ha.lo hi
    simp [hnone]
  · rfl

/-- `s` with other values in HI and LO of the current generation. -/
def State.withHiLo (s : State) (hi lo : Word) : State := { s with current := { s.current with hi := hi, lo := lo } }

/-- The outcome `o` from `s` and the outcome `o'` from `s'` retire the same effects, which write HI if `writesHi` and LO
if `writesLo`, or take the same fault. -/
def SameEffects (writesHi writesLo : Bool) (s s' : State) (o o' : Host.Outcome State Fault Refusal) : Prop :=
  (∃ e : Effects, o = .next (retire e s) ∧ o' = .next (retire e s') ∧
    (writesHi = true → e.hi.isSome = true) ∧ (writesLo = true → e.lo.isSome = true)) ∨
  (∃ c w a, o = .next (takeFault c w a s) ∧ o' = .next (takeFault c w a s'))

section
variable {wh wl : Bool} {s s' : State}

theorem sameEffects_finish (e : Effects) (hh : wh = true → e.hi.isSome = true) (hl : wl = true → e.lo.isSome = true) :
    SameEffects wh wl s s' (finish e s) (finish e s') :=
  .inl ⟨e, rfl, rfl, hh, hl⟩

theorem sameEffects_raise (hi lo : Word) (c : Cause) (a : Option Word) :
    SameEffects wh wl s (s.withHiLo hi lo) (raise c a s) (raise c a (s.withHiLo hi lo)) :=
  .inr ⟨c, some (fetchedWord s), a, rfl, rfl⟩

theorem sameEffects_ite {p : Prop} [Decidable p] {o o' q q' : Host.Outcome State Fault Refusal}
    (ho : SameEffects wh wl s s' o o') (hq : SameEffects wh wl s s' q q') :
    SameEffects wh wl s s' (if p then o else q) (if p then o' else q') := by
  split
  · exact ho
  · exact hq

end

/-- Only mfhi and mflo read HI or LO: every other instruction decides what to do, and with which values, by what the two
states share. -/
theorem exec_sameEffects {i : Instr} (h : ∀ rd, i ≠ .mfhi rd ∧ i ≠ .mflo rd) (s : State) (hi lo : Word) :
    SameEffects i.writesHi i.writesLo s (s.withHiLo hi lo) (exec i s) (exec i (s.withHiLo hi lo)) := by
  cases i with
  | mfhi rd => exact absurd rfl (h rd).1
  | mflo rd => exact absurd rfl (h rd).2
  | mult | multu => exact sameEffects_finish _ (fun _ => rfl) (fun _ => rfl)
  | mthi => exact sameEffects_finish _ (fun _ => rfl) nofun
  | mtlo => exact sameEffects_finish _ nofun (fun _ => rfl)
  | div | divu => exact sameEffects_ite (sameEffects_raise ..) (sameEffects_finish _ (fun _ => rfl) (fun _ => rfl))
  | add | sub | addi | jr | jalr | beq | bne | blez | bgtz | j | jal =>
    exact sameEffects_ite (sameEffects_raise ..) (sameEffects_finish _ nofun nofun)
  | lh | lw | sh | sw => exact sameEffects_ite (sameEffects_finish _ nofun nofun) (sameEffects_raise ..)
  | _ => exact sameEffects_finish _ nofun nofun

/-- The commit of the PC reads nothing of HI and LO. -/
theorem retire_withHiLo_pc (e : Effects) (s : State) (hi lo : Word) :
    (retire e (s.withHiLo hi lo)).next.pc = (retire e s).next.pc ∧
    (retire e (s.withHiLo hi lo)).next.pending = (retire e s).next.pending := by
  cases hp : s.current.pending with
  | none =>
    obtain ⟨hpc, hpending⟩ := retire_notInSlot hp e
    obtain ⟨hpc', hpending'⟩ := retire_notInSlot (s := s.withHiLo hi lo) hp e
    exact ⟨hpc'.trans hpc.symm, hpending'.trans hpending.symm⟩
  | some a =>
    obtain ⟨hpc, hpending⟩ := retire_inSlot hp e
    obtain ⟨hpc', hpending'⟩ := retire_inSlot (s := s.withHiLo hi lo) hp e
    exact ⟨hpc'.trans hpc.symm, hpending'.trans hpending.symm⟩

/-- The GPR write port reads nothing of HI and LO. -/
theorem retire_withHiLo_x (e : Effects) (s : State) (hi lo : Word) (r : Reg) :
    (retire e (s.withHiLo hi lo)).next.x r = (retire e s).next.x r := by
  cases hg : e.gpr with
  | none => rw [retire_regsKept hg, retire_regsKept hg]; rfl
  | some p => rw [retire_regWritten (v := p.2) hg, retire_regWritten (v := p.2) hg]; rfl

/-- Settles O43. -/
theorem hiLoAreReadAndWrittenOnlyByTheirInstructions : Obligations.HiLoAreReadAndWrittenOnlyByTheirInstructions := by
  refine ⟨fun i s t h => ⟨exec_hi_of_notWriter h, exec_lo_of_notWriter h⟩, fun i s t u hi lo hne ht hu => ?_⟩
  obtain ⟨e, he, he', hh, hl⟩ | ⟨c, w, a, hf, hf'⟩ := exec_sameEffects hne s hi lo
  · obtain rfl := Host.Outcome.next.inj (ht.symm.trans he)
    obtain rfl := Host.Outcome.next.inj (hu.symm.trans he')
    obtain ⟨hpc, hpending⟩ := retire_withHiLo_pc e s hi lo
    refine ⟨retire_withHiLo_x e s hi lo, hpc, hpending, by simp [State.withHiLo], by simp [State.withHiLo], rfl,
      fun hw _ => ?_, fun hw _ => ?_⟩
    · obtain ⟨v, hv⟩ := Option.isSome_iff_exists.mp (hh hw)
      simp [hv]
    · obtain ⟨v, hv⟩ := Option.isSome_iff_exists.mp (hl hw)
      simp [hv]
  · obtain rfl := Host.Outcome.next.inj (ht.symm.trans hf)
    obtain rfl := Host.Outcome.next.inj (hu.symm.trans hf')
    refine ⟨fun _ => rfl, rfl, rfl, rfl, rfl, rfl, fun _ hr => ?_, fun _ hr => ?_⟩
    · simp at hr
    · simp at hr

end Sys2Proof.Machine
end

section
/-! Memory as data and the host's operations (spec/10_state.md R34, R35; spec/70_reset_and_hazards.md R270, R271, R280
to R288): the canonical form is unique, a run counts its cycles and ends in one state, what a load and a word write
leave. -/

namespace Sys2Proof.Machine

/-! ### The canonical form -/

theorem Memory.wf_cons {k : Nat} {b : Byte} {m : Memory} (h : Memory.wf ((k, b) :: m)) :
    (∀ p ∈ m, k < p.1) ∧ b ≠ 0#8 ∧ Memory.wf m := by
  obtain ⟨hs, hz⟩ := h
  obtain ⟨hk, hm⟩ := List.pairwise_cons.mp hs
  exact ⟨hk, hz (k, b) (by simp), hm, fun p hp => hz p (List.mem_cons_of_mem _ hp)⟩

theorem Memory.read_cons_self (k : Nat) (b : Byte) (m : Memory) : Memory.read ((k, b) :: m) k = b := if_pos rfl

theorem Memory.read_cons_of_ne {k a : Nat} (h : a ≠ k) (b : Byte) (m : Memory) :
    Memory.read ((k, b) :: m) a = Memory.read m a := if_neg h.symm

/-- A memory in canonical form that reads like one whose first entry is at `k` lists no address below `k`. -/
theorem Memory.head_le_of_read_eq {k l : Nat} {b c : Byte} {m n : Memory} (hm : Memory.wf ((k, b) :: m))
    (hn : Memory.wf ((l, c) :: n)) (h : ∀ a, Memory.read ((k, b) :: m) a = Memory.read ((l, c) :: n) a) : l ≤ k := by
  by_contra hlt
  obtain ⟨-, hb, -⟩ := Memory.wf_cons hm
  obtain ⟨hl, -, -⟩ := Memory.wf_cons hn
  have hk := h k
  rw [Memory.read_cons_self, Memory.read_eq_zero_of_lt] at hk
  · exact hb hk
  · intro p hp
    obtain rfl | hp := List.mem_cons.mp hp
    · exact Nat.lt_of_not_le hlt
    · exact (Nat.lt_of_not_le hlt).trans (hl p hp)

/-- Two memories in canonical form that read alike are equal: their first entries agree, because neither lists an
address the other reads as 0. -/
theorem Memory.ext_of_wf {m n : Memory} (hm : Memory.wf m) (hn : Memory.wf n)
    (h : ∀ a, Memory.read m a = Memory.read n a) : m = n := by
  induction m generalizing n with
  | nil =>
    cases n with
    | nil => rfl
    | cons q n =>
      obtain ⟨-, hc, -⟩ := Memory.wf_cons hn
      exact absurd ((h q.1).trans (Memory.read_cons_self ..)).symm hc
  | cons p m ih =>
    cases n with
    | nil =>
      obtain ⟨-, hb, -⟩ := Memory.wf_cons hm
      exact absurd ((Memory.read_cons_self ..).symm.trans (h p.1)) hb
    | cons q n =>
      obtain ⟨k, b⟩ := p
      obtain ⟨l, c⟩ := q
      obtain rfl : k = l :=
        le_antisymm (Memory.head_le_of_read_eq hn hm fun a => (h a).symm) (Memory.head_le_of_read_eq hm hn h)
      obtain rfl : b = c := by simpa only [Memory.read_cons_self] using h k
      obtain ⟨hkm, -, hm⟩ := Memory.wf_cons hm
      obtain ⟨hkn, -, hn⟩ := Memory.wf_cons hn
      refine congrArg _ (ih hm hn fun a => ?_)
      by_cases ha : a = k
      · rw [ha, Memory.read_eq_zero_of_lt hkm, Memory.read_eq_zero_of_lt hkn]
      · simpa only [Memory.read_cons_of_ne ha] using h a

/-- Settles O50: the laws of writing follow from uniqueness, by reading. -/
theorem canonicalMemoryIsUnique : Obligations.CanonicalMemoryIsUnique := by
  refine ⟨fun _ _ => Memory.ext_of_wf, fun m a b c hm => ⟨Memory.write_wf hm a b, ?twice, ?same⟩⟩
  case twice =>
    refine Memory.ext_of_wf (Memory.write_wf (Memory.write_wf hm a b) a c) (Memory.write_wf hm a c) fun d => ?_
    rw [Memory.read_write (Memory.write_wf hm a b), Memory.read_write hm, Memory.read_write hm]
    split <;> rfl
  case same =>
    refine Memory.ext_of_wf (Memory.write_wf hm a _) hm fun d => ?_
    rw [Memory.read_write hm]
    split
    · next hd => rw [hd]
    · rfl

/-! ### Host word access (R285) -/

theorem writeMemoryWord_aligned {a : Word} (ha : a.toNat % 4 = 0) (s : State) (v : Word) :
    s.writeMemoryWord a v = .next { s with mem := memWrite s.cfg s.mem a 4 v } :=
  if_pos ((aligned_iff .word a).mpr ha)

theorem readMemoryWord_aligned {a : Word} (ha : a.toNat % 4 = 0) (s : State) :
    s.readMemoryWord a = .ok (memRead32 s.cfg s.mem a) :=
  if_pos ((aligned_iff .word a).mpr ha)

/-- Settles O48. -/
theorem hostWordRoundTrip : Obligations.HostWordRoundTrip := by
  refine ⟨fun s a v hm ha hmap => ⟨_, writeMemoryWord_aligned ha s v, ?word, ?byte, rfl, rfl⟩, fun s a v ha => ?refused⟩
  case word => rw [readMemoryWord_aligned ha, memRead32_memWrite hm a v hmap]
  case byte =>
    have hbyte := byteAt_memWrite_add hm a v le_rfl (by decide) (hmap 0 (by decide))
    rw [BitVec.add_zero, byteOf_eq, Nat.mul_zero, Nat.pow_zero, Nat.div_one] at hbyte
    exact hbyte
  case refused =>
    have hmis : ¬Width.word.aligned a = true := fun h => ha ((aligned_iff .word a).mp h)
    exact ⟨if_neg hmis, if_neg hmis⟩

/-! ### The initial state (R35, R270) -/

theorem Generation.initial_x (c : Config) (r : Reg) : (Generation.initial c).x r = 0#32 := by
  simp [Generation.x, Generation.initial]

theorem byteAt_nil (c : Config) (a : Word) : byteAt c [] a = 0#8 := by
  simp [byteAt, Memory.read]

/-- Settles O51. -/
theorem initialState : Obligations.InitialState := fun s =>
  ⟨rfl, Generation.initial_x s.cfg, rfl, rfl, rfl, rfl, rfl, rfl, rfl, byteAt_nil s.cfg⟩

/-! ### Bounded runs and runs to completion (R280, R281, R288) -/

/-- The count of a bounded run: at most `n`, what IC rises by, and less than `n` only if the run flag is cleared. -/
theorem hostStep_counts (n : Nat) (s : State) : (hostStep n s).1 ≤ n ∧
    (hostStep n s).2.current.ic = s.current.ic + (hostStep n s).1 ∧
    ((hostStep n s).1 < n → (hostStep n s).2.current.run = false) := by
  induction n generalizing s with
  | zero => exact ⟨le_rfl, rfl, fun h => absurd h (lt_irrefl 0)⟩
  | succ n ih =>
    cases hr : s.current.run with
    | false =>
      rw [hostStep_stopped hr]
      exact ⟨Nat.zero_le _, rfl, fun _ => hr⟩
    | true =>
      obtain ⟨hle, hic, hstop⟩ := ih (advance s)
      have hstep := step_ic_of_running hr (advance_step s)
      rw [hostStep_succ hr]
      dsimp only
      exact ⟨by omega, by omega, fun h => hstop (by omega)⟩

theorem hostStep_add (m n : Nat) (s : State) : hostStep (m + n) s =
    ((hostStep m s).1 + (hostStep n (hostStep m s).2).1, (hostStep n (hostStep m s).2).2) := by
  induction m generalizing s with
  | zero => simp [hostStep]
  | succ m ih =>
    cases hr : s.current.run with
    | false => simp only [hostStep_stopped hr]
    | true =>
      rw [Nat.succ_add, hostStep_succ hr, hostStep_succ hr, ih]
      simp only [Nat.add_right_comm]

/-- Settles O54. -/
theorem boundedRunCounts : Obligations.BoundedRunCounts := ⟨hostStep_counts, hostStep_add⟩

/-- A longer run than one that has stopped the machine ends in the same state. -/
theorem hostStep_of_stopped {s : State} {n m : Nat} (h : (hostStep n s).2.current.run = false) (hnm : n ≤ m) :
    (hostStep m s).2 = (hostStep n s).2 := by
  obtain ⟨k, rfl⟩ := Nat.exists_eq_add_of_le hnm
  rw [hostStep_add, hostStep_stopped h]

/-- Settles O55: both ends are the state after the longer of the two runs. -/
theorem runEndsInOneState : Obligations.RunEndsInOneState := by
  rintro s t u ⟨n, rfl, ht⟩ ⟨m, rfl, hu⟩
  refine ⟨?_, hostStep_stopped ht⟩
  rw [← hostStep_of_stopped ht (le_max_left n m), ← hostStep_of_stopped hu (le_max_right n m)]

/-! ### The program load (R271) -/

/-- A word is determined by its four bytes. -/
theorem eq_of_byteOf {v w : Word} (h : ∀ k < 4, byteOf v k = byteOf w k) : v = w := by
  rw [← leWord_byteOf v, ← leWord_byteOf w, h 0 (by decide), h 1 (by decide), h 2 (by decide), h 3 (by decide)]

section Load
variable {c : Config} {m : Memory} (hm : Memory.wf m) (a : Word) (ws : List Word) (hlen : 4 * ws.length ≤ 2 ^ 32)
include hm hlen

/-- Word `j` of a load reads back, where its four bytes are mapped. -/
theorem memRead32_writeWords {j : Nat} (hj : j < ws.length)
    (hmap : ∀ k < 4, mapped c (a + BitVec.ofNat 32 (4 * j) + BitVec.ofNat 32 k) = true) :
    memRead32 c (writeWords c m a ws) (a + BitVec.ofNat 32 (4 * j)) = ws[j] := by
  refine eq_of_byteOf fun k hk => ?_
  have hk' := hmap k hk
  rw [BitVec.add_assoc, ← BitVec.ofNat_add] at hk'
  rw [byteOf_memRead32 _ _ _ hk, BitVec.add_assoc, ← BitVec.ofNat_add]
  exact byteAt_writeWords_add hm a ws hlen hj hk hk'

/-- A byte outside the list of a load is kept. -/
theorem byteAt_writeWords_outside {b : Word} (hb : 4 * ws.length ≤ (b - a).toNat) :
    byteAt c (writeWords c m a ws) b = byteAt c m b := by
  rw [byteAt_writeWords hm a b ws hlen, if_neg fun h => Nat.not_lt.mpr hb h.2]

end Load

/-- Settles O57, one law of `writeWords` per clause. -/
theorem loadWritesProgram : Obligations.LoadWritesProgram := by
  refine ⟨fun s words hm hlen => ⟨fun j hj k hk hmap => ?byte, fun j hj ha hmap => ?word,
    fun a ha => byteAt_writeWords_outside hm _ words hlen ha,
    fun a ha => read_writeWords_unmapped hm _ a words ha⟩, fun _ _ => ⟨rfl, rfl, rfl, rfl, rfl⟩⟩
  case byte =>
    rw [← byteOf_eq]
    exact byteAt_writeWords_add hm _ words hlen hj hk hmap
  case word =>
    rw [readMemoryWord_aligned ha]
    exact congrArg Except.ok (memRead32_writeWords hm _ words hlen hj hmap)

end Sys2Proof.Machine
end

section
/-! The block as hardware equals the cycle (spec/70_reset_and_hazards.md R290 to R295): the decoder's tag is the decoded
instruction's, the engine's outputs ask for what the instruction does, and the resolver and the edge are the memory
primitives and the commit. -/

namespace Sys2Proof.Machine

/-! ### The decoder (R291) -/

/-- The instruction a tag builds from the fields of the word `w`. -/
def buildOf (w : Word) : Tag → Instr
  | .r t => t.build { rs := rsOf w, rt := rtOf w, rd := rdOf w, shamt := shamtOf w, funct := functOf w }
  | .i t => t.build { opcode := opcodeOf w, rs := rsOf w, rt := rtOf w, imm := imm16Of w }
  | .j t => t.build { opcode := opcodeOf w, target := target26Of w }

theorem classify_of_decodeInstr {w : Word} {i : Instr} (h : decodeInstr w = .ok i) :
    ∃ tag, classify (decodeWord w) = some tag ∧ i = buildOf w tag := by
  have hi := decodeInstr_eq_ok.mp h
  unfold decodeWord at hi ⊢
  cases hf : formatOf (opcodeOf w) with
  | r =>
    rw [hf] at hi
    obtain ⟨t, ht, rfl⟩ := Option.map_eq_some_iff.mp hi
    exact ⟨.r t, congrArg (Option.map Tag.r) ht, rfl⟩
  | i =>
    rw [hf] at hi
    obtain ⟨t, ht, rfl⟩ := Option.map_eq_some_iff.mp hi
    exact ⟨.i t, congrArg (Option.map Tag.i) ht, rfl⟩
  | j =>
    rw [hf] at hi
    obtain ⟨t, ht, rfl⟩ := Option.map_eq_some_iff.mp hi
    exact ⟨.j t, congrArg (Option.map Tag.j) ht, rfl⟩

theorem classify_of_reject {w : Word} {r : Reject} (h : decodeInstr w = .error r) : classify (decodeWord w) = none := by
  unfold decodeInstr at h
  cases hi : (decodeWord w).instr with
  | some i => simp [hi] at h
  | none =>
    cases hd : decodeWord w with
    | r f | i f | j f =>
      rw [hd] at hi
      exact Option.map_eq_none_iff.mpr (Option.map_eq_none_iff.mp hi)

/-! ### The engine (R292) -/

/-- The engine's inputs for the word `w` under the tag `tag` (R292; log entry 10). -/
def blockInput (s : State) (w : Word) (tag : Tag) : EngineIn where
  tag := tag
  a := s.x (rsOf w)
  b := s.x (rtOf w)
  imm16 := imm16Of w
  shamt := shamtOf w
  target26 := target26Of w
  hi := s.current.hi
  lo := s.current.lo
  pc := s.current.pc
  pendingValid := s.current.pending.isSome
  rt := (decoder w).rt
  rd := (decoder w).rd

/-- The engine's outputs ask for what the execution `o` from `s` does: the same fault, or a retirement with the effects
of the enabled outputs. -/
def EngineOut.Asks (s : State) (e : EngineOut) (o : Host.Outcome State Fault Refusal) : Prop :=
  (∃ c, e.faultValid = true ∧ causeOfCode e.faultCause = some c ∧ o = raise c none s) ∨
  (e.faultValid = false ∧ o = .next (retire e.effects s))

section
variable {s : State}

theorem faultOut_asks {code : BitVec 3} {c : Cause} (h : causeOfCode code = some c) :
    (faultOut code).Asks s (raise c none s) := .inl ⟨c, rfl, h, rfl⟩

theorem gprOut_asks (d : BitVec 5) {v v' : Word} (h : v' = v) : (gprOut d v).Asks s (finishGpr (regOf d) v' s) :=
  h ▸ .inr ⟨rfl, rfl⟩

theorem hiLoOut_asks {hi lo hi' lo' : Word} (hh : hi' = hi) (hl : lo' = lo) :
    (hiLoOut hi lo).Asks s (finishHiLo hi' lo' s) := hh ▸ hl ▸ .inr ⟨rfl, rfl⟩

theorem asks_ite {p : Prop} [Decidable p] {e f : EngineOut} {o q : Host.Outcome State Fault Refusal}
    (he : e.Asks s o) (hf : f.Asks s q) : (if p then e else f).Asks s (if p then o else q) := by
  split
  · exact he
  · exact hf

variable (w : Word) (tag : Tag)

theorem redirectOut_asks (target : Word) :
    (redirectOut (blockInput s w tag) target).Asks s (transfer none target s) :=
  asks_ite (faultOut_asks rfl) (.inr ⟨rfl, rfl⟩)

theorem linkOut_asks (d : BitVec 5) (target : Word) :
    (linkOut (blockInput s w tag) d target).Asks s
      (transfer (some (regOf d, afterSlot s.current.pc)) target s) :=
  asks_ite (faultOut_asks rfl) (.inr ⟨rfl, rfl⟩)

theorem branchOut_asks {taken taken' : Bool} (h : taken' = taken) :
    (branchOut (blockInput s w tag) taken).Asks s (branch taken' (imm16Of w) s) :=
  h ▸ redirectOut_asks w tag _

end

/-! The engine's arithmetic is the instructions' (R140 to R143, R118, R208, R209). -/

theorem unsignedProduct_high (a b : Word) :
    (unsignedProduct a b).extractLsb' 32 32 = BitVec.ofNat 32 (a.toNat * b.toNat / 2 ^ 32) := by
  apply BitVec.eq_of_toNat_eq
  rw [BitVec.extractLsb'_toNat, unsignedProduct_toNat, Nat.shiftRight_eq_div_pow, BitVec.toNat_ofNat]

theorem unsignedProduct_low (a b : Word) :
    (unsignedProduct a b).extractLsb' 0 32 = BitVec.ofNat 32 (a.toNat * b.toNat % 2 ^ 32) := by
  apply BitVec.eq_of_toNat_eq
  rw [BitVec.extractLsb'_toNat, unsignedProduct_toNat, Nat.shiftRight_zero, BitVec.toNat_ofNat, Nat.mod_mod]

theorem setLess_eq (a b : Word) : setLess a b = if a.slt b then 1#32 else 0#32 := by
  simp [setLess, BitVec.slt]

theorem leZero_eq (a : Word) : leZero a = a.sle 0#32 := by simp [leZero, BitVec.sle]

theorem gtZero_eq (a : Word) : gtZero a = (0#32).slt a := by simp [gtZero, BitVec.slt]

theorem engineR_asks (s : State) (w : Word) (t : RTag) :
    (engineR (blockInput s w (.r t)) t).Asks s (exec (buildOf w (.r t)) s) := by
  cases t with
  | jr => exact redirectOut_asks ..
  | jalr => exact linkOut_asks ..
  | mthi | mtlo => exact .inr ⟨rfl, rfl⟩
  | mult => exact hiLoOut_asks rfl rfl
  | multu => exact hiLoOut_asks (unsignedProduct_high _ _) (unsignedProduct_low _ _)
  | div =>
    exact asks_ite (faultOut_asks rfl) (hiLoOut_asks (signedRemainder_eq_srem _ _) (signedQuotient_eq_sdiv _ _))
  | divu =>
    exact asks_ite (faultOut_asks rfl) (hiLoOut_asks (unsignedRemainder_eq_mod _ _) (unsignedQuotient_eq_div _ _))
  | add | sub => exact asks_ite (faultOut_asks rfl) (gprOut_asks _ rfl)
  | slt => exact gprOut_asks _ (setLess_eq _ _)
  | _ => exact gprOut_asks _ rfl

theorem engineI_asks (s : State) (w : Word) {t : ITag} (h : accessOf (.i t) = none) :
    (engineI (blockInput s w (.i t)) t).Asks s (exec (buildOf w (.i t)) s) := by
  cases t with
  | beq | bne => exact branchOut_asks _ _ rfl
  | blez => exact branchOut_asks _ _ (leZero_eq _)
  | bgtz => exact branchOut_asks _ _ (gtZero_eq _)
  | addi => exact asks_ite (faultOut_asks rfl) (gprOut_asks _ rfl)
  | slti => exact gprOut_asks _ (setLess_eq _ _)
  | addiu | andi | ori | xori | lui => exact gprOut_asks _ rfl
  | lb | lh | lw | sb | sh | sw => cases h

theorem engineJ_asks (s : State) (w : Word) (t : JTag) :
    (engineJ (blockInput s w (.j t)) t).Asks s (exec (buildOf w (.j t)) s) := by
  cases t with
  | j => exact redirectOut_asks ..
  | jal => exact linkOut_asks ..

theorem engine_asks (s : State) (w : Word) {tag : Tag} (h : accessOf tag = none) :
    (engine (blockInput s w tag)).Asks s (exec (buildOf w tag) s) := by
  cases tag with
  | r t => exact engineR_asks s w t
  | i t => exact engineI_asks s w h
  | j t => exact engineJ_asks s w t

/-! ### The resolver (R293) -/

/-- The datum of a load of the given width (R182 to R184). -/
def loadedBy : Width → Config → Memory → Word → Word
  | .byte => loadedByte
  | .half => loadedHalf
  | .word => loadedWord

theorem resolver_loadedBy (c : Config) (m : Memory) (inp : ResolverIn) :
    (resolver c m inp).loadData = loadedBy inp.width c m (effectiveAddress inp.base inp.imm16) := by
  rw [resolver_loadData]
  cases inp.width <;> rfl

/-- The resolver's inputs for the access of the word `w`. -/
def accessInput (s : State) (w : Word) (width : Width) (isStore : Bool) : ResolverIn where
  base := s.x (rsOf w)
  imm16 := imm16Of w
  width := width
  isStore := isStore
  storeData := s.x (rtOf w)

theorem resolver_alignFault_iff (c : Config) (m : Memory) (inp : ResolverIn) :
    (resolver c m inp).alignFault = true ↔ inp.width.aligned (effectiveAddress inp.base inp.imm16) = false := by
  rw [resolver_alignFault, Bool.not_eq_true']

/-! ### The instruction side of a cycle (R290) -/

theorem blockExecute_illegal {w : Word} (h : classify (decodeWord w) = none) (s : State) :
    blockExecute s w = commit (takeIllegal w s) := by
  have htag : (decoder w).tag = none := h
  unfold blockExecute
  simp only [htag]
  exact edge_faultEdge s rfl _ _

section Tagged
variable {s : State} {w : Word} {tag : Tag} (h : classify (decodeWord w) = some tag)
include h

/-- A tag that is no load or store: the edge commits what the engine asks for. -/
theorem blockExecute_engine (ha : accessOf tag = none) (hw : fetchedWord s = w)
    {o : Host.Outcome State Fault Refusal} (ho : (engine (blockInput s w tag)).Asks s o) :
    commitOutcome o = .next (blockExecute s w) := by
  have htag : (decoder w).tag = some tag := h
  unfold blockExecute
  simp only [htag, ha]
  obtain ⟨c, hf, hc, rfl⟩ | ⟨hf, rfl⟩ := ho
  · rw [raise_next, hw]
    exact congrArg Host.Outcome.next ((if_pos hf).trans (edge_faultEdge s hc _ _)).symm
  · have hne : ¬(engine (blockInput s w tag)).faultValid = true := by simp [hf]
    exact congrArg Host.Outcome.next ((if_neg hne).trans (edge_cleanEdge s _ none)).symm

section Access
variable (he : engine (blockInput s w tag) = {}) (hw : fetchedWord s = w) {width : Width}
include he hw

/-- Where the engine drives nothing and the resolver finds the address misaligned, the edge takes the fault. -/
theorem blockExecute_misaligned {isStore : Bool} (ha : accessOf tag = some (width, isStore))
    (hal : width.aligned (effectiveAddress (s.x (rsOf w)) (imm16Of w)) = false) :
    commitOutcome (raise .unalignedAccess (some (effectiveAddress (s.x (rsOf w)) (imm16Of w))) s) =
      .next (blockExecute s w) := by
  have htag : (decoder w).tag = some tag := h
  have hne : ¬(engine (blockInput s w tag)).faultValid = true := by simp [he]
  have hfault := (resolver_alignFault_iff s.cfg s.mem (accessInput s w width isStore)).mpr hal
  unfold blockExecute
  simp only [htag, ha]
  rw [raise_next, hw]
  exact congrArg Host.Outcome.next
    ((if_neg hne).trans ((if_pos hfault).trans (edge_faultEdge s (code := 4#3) rfl _ _))).symm

omit hw in
/-- Where the engine drives nothing and the address is aligned, the edge writes the datum or performs the byte
writes. -/
theorem blockExecute_aligned {isStore : Bool} (ha : accessOf tag = some (width, isStore))
    (hal : width.aligned (effectiveAddress (s.x (rsOf w)) (imm16Of w)) = true) :
    blockExecute s w =
      if isStore then
        edge s (cleanEdge s.current (engine (blockInput s w tag)))
          (applyByteWrites s.mem (resolver s.cfg s.mem (accessInput s w width isStore)).byteWrites)
      else
        edge s (cleanEdge s.current
          (gprOut (decoder w).rt (resolver s.cfg s.mem (accessInput s w width isStore)).loadData)) s.mem := by
  have htag : (decoder w).tag = some tag := h
  have hne : ¬(engine (blockInput s w tag)).faultValid = true := by simp [he]
  have hok : ¬(resolver s.cfg s.mem (accessInput s w width isStore)).alignFault = true := by
    rw [resolver_alignFault_iff]
    exact fun hf => Bool.false_ne_true (hf.symm.trans hal)
  unfold blockExecute
  simp only [htag, ha]
  exact (if_neg hne).trans (if_neg hok)

theorem blockExecute_load (ha : accessOf tag = some (width, false)) :
    commitOutcome (load width (rtOf w) (rsOf w) (imm16Of w) (loadedBy width) s) = .next (blockExecute s w) := by
  cases hal : width.aligned (effectiveAddress (s.x (rsOf w)) (imm16Of w)) with
  | false => rw [load_raises hal, blockExecute_misaligned h he hw ha hal]
  | true =>
    rw [load_next hal, blockExecute_aligned h he ha hal, if_neg Bool.false_ne_true, resolver_loadedBy]
    exact congrArg Host.Outcome.next (edge_cleanEdge s (gprOut (decoder w).rt _) none).symm

theorem blockExecute_store (ha : accessOf tag = some (width, true)) :
    commitOutcome (store width (rtOf w) (rsOf w) (imm16Of w) s) = .next (blockExecute s w) := by
  cases hal : width.aligned (effectiveAddress (s.x (rsOf w)) (imm16Of w)) with
  | false => rw [store_raises hal, blockExecute_misaligned h he hw ha hal]
  | true =>
    rw [store_next hal, blockExecute_aligned h he ha hal, if_pos rfl, he, resolver_byteWrites _ _ rfl]
    exact congrArg Host.Outcome.next (edge_cleanEdge s {} (some ⟨_, width, s.x (rtOf w)⟩)).symm

end Access

/-- The instruction side of the block does what the tag's instruction does. -/
theorem blockExecute_tag (hw : fetchedWord s = w) :
    commitOutcome (exec (buildOf w tag) s) = .next (blockExecute s w) := by
  cases ha : accessOf tag with
  | none => exact blockExecute_engine h ha hw (engine_asks s w ha)
  | some access =>
    cases tag with
    | r t => cases ha
    | j t => cases ha
    | i t =>
      cases t with
      | lb | lh | lw => exact blockExecute_load h rfl hw rfl
      | sb | sh | sw => exact blockExecute_store h rfl hw rfl
      | _ => cases ha

end Tagged

/-! ### One clock edge (R290, R295) -/

/-- The resolver's inputs for the fetch: the PC, with width 4 (R293). -/
def fetchInput (s : State) : ResolverIn where
  base := s.current.pc
  imm16 := 0#16
  width := .word
  isStore := false
  storeData := 0#32

theorem effectiveAddress_zero (a : Word) : effectiveAddress a 0#16 = a := by
  simp [effectiveAddress, sext32]

/-- The fetch through the resolver: what its port says of the PC, its bytes and the word there. -/
theorem fetchPort (s : State) :
    let port := resolver s.cfg s.mem (fetchInput s)
    port.ea = s.current.pc ∧ port.loadData = fetchedWord s ∧
    (port.alignFault = true ↔ Width.word.aligned s.current.pc = false) ∧
    (port.lanes.all Lane.mapped = true ↔ ∀ k < 4, mapped s.cfg (s.current.pc + BitVec.ofNat 32 k) = true) := by
  have hea : effectiveAddress (fetchInput s).base (fetchInput s).imm16 = s.current.pc := effectiveAddress_zero _
  refine ⟨hea, ?_, ?_, ?_⟩
  · rw [resolver_loadedBy, hea]; rfl
  · rw [resolver_alignFault_iff, hea]; rfl
  · rw [resolver_lanes_mapped _ _ rfl, hea]

/-- The edge of a RUNNING block: the fetch's two checks in their order, then the instruction side. -/
theorem blockCycle_running {s : State} (hr : s.current.run = true) : blockCycle s =
    if Width.word.aligned s.current.pc = false then commit (takeFetchFault .unalignedAccess s)
    else if ∀ k : Nat, k < 4 → mapped s.cfg (s.current.pc + BitVec.ofNat 32 k) = true then
      blockExecute s (fetchedWord s)
    else commit (takeFetchFault .unmappedFetch s) := by
  obtain ⟨hea, hdata, hal, hlanes⟩ := fetchPort s
  unfold fetchInput at hea hdata hal hlanes
  have hmis := edge_faultEdge s (code := 4#3) rfl none (some s.current.pc)
  have hunmapped := edge_faultEdge s (code := 5#3) rfl none (some s.current.pc)
  unfold blockCycle
  rw [if_pos hr]
  simp only [hea, hdata, hal, hlanes, hmis, hunmapped]
  rfl

/-- Settles O56, along the outcomes of the fetch and of the decoder. -/
theorem blockViewEqualsCycle : Obligations.BlockViewEqualsCycle := by
  intro s
  cases hr : s.current.run with
  | false =>
    have hblock : blockCycle s = s := if_neg (by simp [hr])
    rw [step_stopped hr, hblock]
  | true =>
    rw [blockCycle_running hr]
    cases fetch_shape s with
    | misaligned hf ha => rw [step_fetchFault hr hf, if_pos ha]
    | unmapped hf ha hm =>
      obtain ⟨k, hk, hm⟩ := hm
      rw [step_fetchFault hr hf, if_neg (by simp [ha]), if_neg fun hall => by simp [hall k hk] at hm]
    | word hf ha hm =>
      rw [if_neg (by simp [ha]), if_pos hm]
      cases hd : decodeInstr (fetchedWord s) with
      | error r => rw [step_illegal hr hf hd, blockExecute_illegal (classify_of_reject hd)]
      | ok i =>
        obtain ⟨tag, htag, rfl⟩ := classify_of_decodeInstr hd
        rw [step_exec hr hf hd, blockExecute_tag htag rfl]

end Sys2Proof.Machine
end
